-- ==== Sys2Proof/Word.lean ====
section
/-! DEFINITION. The word types of the LC-3 CORE: spec/00_scope.md R6 (XLEN, ALEN, NREG) and R9 (arithmetic on 16-bit
values is modulo 65536, which is BitVec's own arithmetic). Field extraction and extension stand in Decode.lean and
Machine/Operands.lean. -/

namespace Sys2Proof

/-- A 16-bit value: a register, a memory cell, an address or an instruction (R6, R9). -/
abbrev Word := BitVec 16

/-- One byte of an image file (R12). -/
abbrev Byte := BitVec 8

/-- A 3-bit register selector naming R0..R7 (R63). -/
abbrev RegIdx := BitVec 3

end Sys2Proof
end

