-- ==== Sys2Proof/Config.lean ====
section
/-! DEFINITION. What an implementation fixes (the parameters of spec/00_scope.md R6, with their defaults) and the free
values: what the host draws and the spec gives no law for. -/

namespace Sys2Proof

/-- The parameters of R6 that change during no session. "A model takes each OPEN or parameter-marked item as an
argument with the stated default": the argument is a field of State that no step writes. MEM_INIT is an argument of
State.boot instead. DESIGN CHOICE, safe: notes/assumptions/3.md. -/
structure Params where
  /-- CC_RESET (R28, D7): the condition codes at reset, by default no flag. -/
  ccReset : BitVec 3 := 0b000#3
  /-- KBSR_ADDR (R46, D3). -/
  kbsrAddr : Word := 0xFE00#16
  /-- The members of DEVICE_ADDRS beside KBSR_ADDR (R46: "at minimum the keyboard-status address"). -/
  moreDeviceAddrs : List Word := []
  /-- DEVICE_ATTACHED (R15, R47, D5). -/
  deviceAttached : Bool := false
  /-- STRICT_DECODE (R65, D6). -/
  strictDecode : Bool := false
  /-- IN_PROMPT (R125, D14). -/
  inPrompt : List Word := []
  /-- HALT_MESSAGE (R127, D15). -/
  haltMessage : List Word := []
  /-- EXIT_FATAL (D24): any non-zero value. DESIGN CHOICE 1, unsafe: notes/assumptions/11.md. -/
  exitFatal : Nat := 1
  deriving DecidableEq, Repr

/-- The defaults of R6. -/
def Params.default : Params := {}

/-- DEVICE_ADDRS (R6, R46): KBSR_ADDR and whatever else the implementation intercepts. -/
def Params.deviceAddrs (p : Params) : List Word := p.kbsrAddr :: p.moreDeviceAddrs

/-- What R6 asks of the parameters: CC_RESET is no flag or one flag (R26, R28), EXIT_FATAL is not zero (D24). -/
def Params.wf (p : Params) : Bool :=
  (p.ccReset == 0b000#3 || p.ccReset == 0b100#3 || p.ccReset == 0b010#3 || p.ccReset == 0b001#3) && p.exitFatal != 0

/-- FREE VALUE. What the console answers to the n-th value the machine draws, when no value stands ready: any 16-bit
value, or none yet (D20, R158); a console that never answers is one whose every later answer is none. Nothing constrains
it. DESIGN CHOICE, safe: notes/assumptions/5.md. -/
opaque Config.consoleAnswer : Nat → Option Word

/-- FREE VALUE. What dev_read of an address returns at the n-th value the machine draws: any 16-bit value, under no
law (R47, D5). DESIGN CHOICE, safe: notes/assumptions/6.md. -/
opaque Config.deviceValue : Nat → Word → Word

end Sys2Proof
end

