-- ==== Sys2Proof/Syntax.lean ====
section
/-! DEFINITION. The instructions: one constructor per row of spec/opcode_table.json (19 decoded shapes,
spec/30_encoding.md R71). A field has exactly the width of its field of the word (R61); immediates and offsets are held
as the raw field, extended where they are used (R62). The bits no handler reads (R65) are no part of an instruction. -/

namespace Sys2Proof

inductive Instr where
  /-- BR (R90). `nzp` is w[11:9]: n, z, p from the most significant bit. -/
  | br (nzp : BitVec 3) (pcOffset9 : BitVec 9)
  /-- ADD, register mode (R80). -/
  | addReg (dr sr1 sr2 : RegIdx)
  /-- ADD, immediate mode (R80). -/
  | addImm (dr sr1 : RegIdx) (imm5 : BitVec 5)
  /-- LD (R100). -/
  | ld (dr : RegIdx) (pcOffset9 : BitVec 9)
  /-- ST (R104). -/
  | st (sr : RegIdx) (pcOffset9 : BitVec 9)
  /-- JSR (R92). -/
  | jsr (pcOffset11 : BitVec 11)
  /-- JSRR (R93). -/
  | jsrr (baseR : RegIdx)
  /-- AND, register mode (R81). -/
  | andReg (dr sr1 sr2 : RegIdx)
  /-- AND, immediate mode (R81). -/
  | andImm (dr sr1 : RegIdx) (imm5 : BitVec 5)
  /-- LDR (R102). -/
  | ldr (dr baseR : RegIdx) (offset6 : BitVec 6)
  /-- STR (R106). -/
  | str (sr baseR : RegIdx) (offset6 : BitVec 6)
  /-- RTI (R140). -/
  | rti
  /-- NOT (R82). -/
  | notReg (dr sr : RegIdx)
  /-- LDI (R101). -/
  | ldi (dr : RegIdx) (pcOffset9 : BitVec 9)
  /-- STI (R105). -/
  | sti (sr : RegIdx) (pcOffset9 : BitVec 9)
  /-- JMP (R91); RET is JMP with BaseR = 7 (R76). -/
  | jmp (baseR : RegIdx)
  /-- RES, the reserved opcode (R141). -/
  | res
  /-- LEA (R103). -/
  | lea (dr : RegIdx) (pcOffset9 : BitVec 9)
  /-- TRAP (R120). -/
  | trap (trapvect8 : BitVec 8)
  deriving DecidableEq, Repr

end Sys2Proof
end

