-- ==== Sys2Proof/WellFormed.lean ====
section
/-! DEFINITION. What well-formed means here. Every term of Instr is well-formed: each field's type is exactly as wide as
its field of the word (spec/30_encoding.md R61 to R63), and R71 lets every word be decoded. The one check the spec
names is on WORDS: with STRICT_DECODE = true, a word whose unread bits are not the assembler's is refused (R65, D6). -/

namespace Sys2Proof

/-- The bits of the word that its format's handler does not read, marked `-` in R61's table. -/
def unreadMask (w : Word) : Word :=
  match (w.extractLsb' 12 4).toNat with
  | 0x1 | 0x5 => if w.getLsbD 5 then 0x0000#16 else 0x0018#16   -- ADD, AND: [4:3] in register mode
  | 0x4 => if w.getLsbD 11 then 0x0000#16 else 0x063F#16        -- JSRR: [10:9] and [5:0]; JSR reads every bit
  | 0x8 | 0xD => 0x0FFF#16                                      -- RTI, RES: [11:0]
  | 0x9 => 0x003F#16                                            -- NOT: [5:0]
  | 0xC => 0x0E3F#16                                            -- JMP: [11:9] and [5:0]
  | 0xF => 0x0F00#16                                            -- TRAP: [11:8]
  | _ => 0x0000#16                                              -- BR, PC9 and BASE6 formats read every bit

/-- What the assembler writes in those bits: ones for NOT, zeros elsewhere (R61). For RES, which has no assembler
name, zeros too: DESIGN CHOICE, safe: notes/assumptions/9.md. -/
def unreadAssembled (w : Word) : Word :=
  if w.extractLsb' 12 4 = 0x9#4 then 0x003F#16 else 0x0000#16

/-- The unread bits of the word hold the assembler's values (R65). -/
def assembledWord (w : Word) : Bool := w &&& unreadMask w == unreadAssembled w

/-- The check a word passes before it is executed: none by default; with STRICT_DECODE = true, `assembledWord`. -/
def wordWellFormed (strict : Bool) (w : Word) : Bool := !strict || assembledWord w

end Sys2Proof
end

