-- ==== Sys2Proof/Decode.lean ====
section
/-! DEFINITION. The decoder and the encoder: spec/30_encoding.md R60 to R65 and R70, R71. The decoder is total: every
16-bit word selects exactly one handler, and none is refused (R71; STRICT_DECODE's refusal is the step's, R65). The opcode numbers and
JSR's mode bit are general knowledge by the spec's own words (D1). PRESUMED by the spec, unsafe:
notes/assumptions/14.md. -/

namespace Sys2Proof

/-- The 16 opcodes of R70. -/
inductive Opcode where
  | br | add | ld | st | jsr | and | ldr | str | rti | not | ldi | sti | jmp | res | lea | trap
  deriving DecidableEq, Repr

/-- The opcode numbers of R70 (D1). -/
def opcodeBits : Opcode → BitVec 4
  | .br => 0x0#4
  | .add => 0x1#4
  | .ld => 0x2#4
  | .st => 0x3#4
  | .jsr => 0x4#4
  | .and => 0x5#4
  | .ldr => 0x6#4
  | .str => 0x7#4
  | .rti => 0x8#4
  | .not => 0x9#4
  | .ldi => 0xA#4
  | .sti => 0xB#4
  | .jmp => 0xC#4
  | .res => 0xD#4
  | .lea => 0xE#4
  | .trap => 0xF#4

/-- The opcode a 4-bit number selects (R70). -/
def opcodeOf (n : BitVec 4) : Opcode :=
  match n.toNat with
  | 0x0 => .br
  | 0x1 => .add
  | 0x2 => .ld
  | 0x3 => .st
  | 0x4 => .jsr
  | 0x5 => .and
  | 0x6 => .ldr
  | 0x7 => .str
  | 0x8 => .rti
  | 0x9 => .not
  | 0xA => .ldi
  | 0xB => .sti
  | 0xC => .jmp
  | 0xD => .res
  | 0xE => .lea
  | _ => .trap   -- 0xF, the only number left

/-- `w[lo + width - 1 : lo]` (R7): always masked to the requested width, whatever the magnitude of w (R65). -/
def field (w : Word) (lo width : Nat) : BitVec width := w.extractLsb' lo width

/-- The opcode of a word: w[15:12] (R60). -/
def opcode (w : Word) : Opcode := opcodeOf (field w 12 4)

/-- DR of the load and operate formats, SR of the store formats: w[11:9] (R61, R63). -/
def fieldDR (w : Word) : RegIdx := field w 9 3

/-- SR1, SR or BaseR: w[8:6] (R61, R63). -/
def fieldSR1 (w : Word) : RegIdx := field w 6 3

/-- SR2: w[2:0] (R61, R63). -/
def fieldSR2 (w : Word) : RegIdx := field w 0 3

/-- The decoder (R70, with the mode bits of R64 and the fields of R61). -/
def decode (w : Word) : Instr :=
  match opcode w with
  | .br => .br (field w 9 3) (field w 0 9)
  | .add =>
    if w.getLsbD 5 then .addImm (fieldDR w) (fieldSR1 w) (field w 0 5)
    else .addReg (fieldDR w) (fieldSR1 w) (fieldSR2 w)
  | .ld => .ld (fieldDR w) (field w 0 9)
  | .st => .st (fieldDR w) (field w 0 9)
  | .jsr => if w.getLsbD 11 then .jsr (field w 0 11) else .jsrr (fieldSR1 w)
  | .and =>
    if w.getLsbD 5 then .andImm (fieldDR w) (fieldSR1 w) (field w 0 5)
    else .andReg (fieldDR w) (fieldSR1 w) (fieldSR2 w)
  | .ldr => .ldr (fieldDR w) (fieldSR1 w) (field w 0 6)
  | .str => .str (fieldDR w) (fieldSR1 w) (field w 0 6)
  | .rti => .rti
  | .not => .notReg (fieldDR w) (fieldSR1 w)
  | .ldi => .ldi (fieldDR w) (field w 0 9)
  | .sti => .sti (fieldDR w) (field w 0 9)
  | .jmp => .jmp (fieldSR1 w)
  | .res => .res
  | .lea => .lea (fieldDR w) (field w 0 9)
  | .trap => .trap (field w 0 8)

/-- The encoder, from the formats of R61: a word of the opcode, with the assembler's values in the unread bits. -/
def encode : Instr → Word
  | .br nzp off => opcodeBits .br ++ nzp ++ off
  | .addReg dr sr1 sr2 => opcodeBits .add ++ dr ++ sr1 ++ 0b000#3 ++ sr2
  | .addImm dr sr1 imm => opcodeBits .add ++ dr ++ sr1 ++ 0b1#1 ++ imm
  | .ld dr off => opcodeBits .ld ++ dr ++ off
  | .st sr off => opcodeBits .st ++ sr ++ off
  | .jsr off => opcodeBits .jsr ++ 0b1#1 ++ off
  | .jsrr base => opcodeBits .jsr ++ 0b000#3 ++ base ++ 0b000000#6
  | .andReg dr sr1 sr2 => opcodeBits .and ++ dr ++ sr1 ++ 0b000#3 ++ sr2
  | .andImm dr sr1 imm => opcodeBits .and ++ dr ++ sr1 ++ 0b1#1 ++ imm
  | .ldr dr base off => opcodeBits .ldr ++ dr ++ base ++ off
  | .str sr base off => opcodeBits .str ++ sr ++ base ++ off
  | .rti => opcodeBits .rti ++ 0x000#12
  | .notReg dr sr => opcodeBits .not ++ dr ++ sr ++ 0b111111#6
  | .ldi dr off => opcodeBits .ldi ++ dr ++ off
  | .sti sr off => opcodeBits .sti ++ sr ++ off
  | .jmp base => opcodeBits .jmp ++ 0b000#3 ++ base ++ 0b000000#6
  | .res => opcodeBits .res ++ 0x000#12
  | .lea dr off => opcodeBits .lea ++ dr ++ off
  | .trap vect => opcodeBits .trap ++ 0x0#4 ++ vect

/-- The instruction the decoder reads from a table word of `nbits` bits: one 16-bit cell (R60). The bits of the cell
above `nbits` are zero; a row wider than one cell does not exist (R60) and gives none. -/
def decodeTableWord (nbits w : Nat) : Option Instr :=
  if nbits ≤ 16 then some (decode (BitVec.ofNat 16 (w % 2 ^ nbits))) else none

end Sys2Proof
end

