-- ==== Sys2Proof/Machine/State.lean ====
section
/-! DEFINITION. The state of the LC-3 CORE as plain data (spec/10_state.md section 6, spec/20_memory.md R40), what can
stop a step, and the machine right after reset (spec/70_reset_and_hazards.md R170). -/

namespace Sys2Proof.Machine

/-- One cell of memory: an address and the 16-bit word there. The spec's unit of addressing is the whole 16-bit word
and no byte of a cell has an address (R40, R48), so the cell is a word and not the byte of Host.Cell.
DESIGN CHOICE, safe: notes/assumptions/1.md. -/
abbrev Cell := Nat × Word

/-- The memory array M (R40): the cells that differ from what an unlisted address reads as, by rising address. -/
abbrev Memory := List Cell

/-- What an unlisted address reads as: the reference value of MEM_INIT (R41, D9).
DESIGN CHOICE, unsafe: notes/assumptions/2.md. -/
def Memory.unlisted : Word := 0x0000#16

/-- The canonical form: addresses below 65536 and strictly rising, no entry equal to what an unlisted address reads
as. Equal memories are equal lists. -/
def Memory.wf : Memory → Bool
  | [] => true
  | (a, v) :: m => decide (a < 65536) && v != Memory.unlisted && m.all (fun c => decide (a < c.1)) && Memory.wf m

/-- The kind of a memory access, as the fault record names it (R151). -/
inductive Access where
  | fetch
  | read
  | write
  deriving DecidableEq, Repr

/-- The three faults (R150, R151, R153) with what each records beside fetch_pc. -/
inductive FaultCause where
  /-- RTI or RES was executed (R150): the opcode. -/
  | unimplementedOpcode (op : BitVec 4)
  /-- A device address was accessed with no device attached (R151): the address, the access kind, and the opcode when
  the fault is not on the fetch. -/
  | unimplementedDevice (address : Word) (access : Access) (op : Option (BitVec 4))
  /-- TRAP with a vector outside the trap table (R153): the vector. -/
  | unrecognizedTrapVector (vector : BitVec 8)
  deriving DecidableEq, Repr

/-- The fault record (R152): the cause with its details, and pc = fetch_pc. -/
structure FaultRecord where
  cause : FaultCause
  pc : Word
  deriving DecidableEq, Repr

/-- The run state (R30). FAULTED carries the fault record. -/
inductive RunState where
  | running
  | halted
  | faulted (record : FaultRecord)
  deriving DecidableEq, Repr

/-- A trap routine that a TRAP step is still inside of, and where it goes on. "While a trap routine waits in
Console.readChar() the engine is suspended inside one step" (R32), RUNNING (R158), and a host can see it there (D30).
Inside a scan a host sees nothing (Machine/Observe.lean).
DESIGN CHOICE, unsafe: notes/assumptions/17.md. -/
inductive Routine where
  /-- GETC waits in readChar (R122). -/
  | getc
  /-- IN waits in readChar, its prompt written (R125). -/
  | inEcho
  /-- PUTS goes on with the read of the address (R124). DESIGN CHOICE, unsafe: notes/assumptions/7.md. -/
  | puts (address : Word)
  /-- PUTSP goes on with the read of the address (R126). DESIGN CHOICE, unsafe: notes/assumptions/7.md. -/
  | putsp (address : Word)
  deriving DecidableEq, Repr

/-- Everything the spec gives the machine, and the block's ports. -/
structure State where
  /-- R0..R7 (R20). -/
  regs : Vector Word 8
  /-- PC (R22). -/
  pc : Word
  /-- CC: N = bit 2, Z = bit 1, P = bit 0 (R26). -/
  cc : BitVec 3
  /-- M (R40). -/
  mem : Memory
  /-- The run state and, with FAULTED, the fault record (R30, R152). -/
  run : RunState
  /-- The trap routine the engine is suspended in, none between the steps of the spec (R32, R158). -/
  routine : Option Routine
  /-- The console port, inwards: the values that stand ready for readChar, oldest first (R14).
  DESIGN CHOICE, safe: notes/assumptions/5.md. -/
  consoleIn : List Word
  /-- The console port, outwards: the values passed to writeChar, oldest first (R14).
  DESIGN CHOICE, safe: notes/assumptions/8.md. -/
  consoleOut : List Word
  /-- The device port, outwards: the (address, value) pairs passed to dev_write, oldest first (R15, R47).
  DESIGN CHOICE, safe: notes/assumptions/8.md. -/
  deviceOut : List (Word × Word)
  /-- The MODEL's own: how many values the host has drawn; numbers the free values of Config.
  DESIGN CHOICE, safe: notes/assumptions/4.md. -/
  draws : Nat
  /-- The parameters of R6. No step writes them. DESIGN CHOICE, safe: notes/assumptions/3.md. -/
  params : Params
  deriving DecidableEq, Repr

/-- Why a step has no next state. The faults of the SPEC are no case of this type: they are run states
(RunState.faulted), which a next state holds. DESIGN CHOICE, safe: notes/assumptions/12.md. -/
inductive Fault where
  /-- Raised by step in HALTED: no step is enabled (R30, R166). Safe: the spec's machine takes no step either. -/
  | halted
  /-- Raised by step in FAULTED: no step is enabled (R30, R152). Safe: the spec's machine takes no step either. -/
  | faulted (record : FaultRecord)
  deriving DecidableEq, Repr

/-- Why the model gives an instruction no meaning. -/
inductive Refusal where
  /-- Raised by exec for an instruction whose meaning is not written yet; no arm does so. Safe: nothing is claimed. -/
  | notModelled (mnemonic : String)
  /-- Raised by step, with STRICT_DECODE = true, for a word whose unread bits are not the assembler's (R65: "a model
  instead refuses such a word (no step)"). Safe: it "errs toward unprovable". -/
  | strictDecode (word : Word)
  deriving DecidableEq, Repr

/-- What a step or a meaning answers. -/
abbrev Result := Host.Outcome State Fault Refusal

/-- The machine at the start of a session with parameters p and memory m, once the image is loaded (R170): registers
zero (R20), PC = 0x3000 (R22), CC = CC_RESET (R28), run state RUNNING (R30), no fault record (R152), inside no trap routine. -/
def State.initial (p : Params) (m : Memory) : State where
  regs := Vector.replicate 8 0x0000#16
  pc := 0x3000#16
  cc := p.ccReset
  mem := m
  run := .running
  routine := none
  consoleIn := []
  consoleOut := []
  deviceOut := []
  draws := 0
  params := p

/-- The machine right after reset: the default parameters, every cell at MEM_INIT's reference value, no image word. -/
def State.reset : State := State.initial Params.default []

end Sys2Proof.Machine
end

