-- ==== Sys2Proof/Machine/Flags.lean ====
section
/-! DEFINITION. The condition codes: spec/10_state.md R25 and R26, and BR's test of them, spec/41_control.md R90. -/

namespace Sys2Proof.Machine

/-- N, bit 2 of CC (R26). -/
def ccN : BitVec 3 := 0b100#3

/-- Z, bit 1 of CC (R26). -/
def ccZ : BitVec 3 := 0b010#3

/-- P, bit 0 of CC (R26). -/
def ccP : BitVec 3 := 0b001#3

/-- SetCC (R25): zero, else the sign bit. -/
def ccOf (v : Word) : BitVec 3 :=
  if v = 0x0000#16 then ccZ else if v.getLsbD 15 then ccN else ccP

/-- BR's condition (R90): some requested flag is set. -/
def ccMeets (nzp cc : BitVec 3) : Bool := (nzp &&& cc) != 0b000#3

/-- CC holds no flag or exactly one (R26). -/
def ccLegal (cc : BitVec 3) : Bool := cc == 0b000#3 || cc == ccN || cc == ccZ || cc == ccP

end Sys2Proof.Machine
end

