-- ==== Sys2Proof/Machine/Ops.lean ====
section
/-! DEFINITION. The named operations over registers, memory, the run state and the ports: the primitives of
spec/00_scope.md R10, the access path of spec/20_memory.md R43 to R47, raising a fault (spec/60_exceptions.md R152),
entering a trap (R157) and the gates of a step (spec/10_state.md R30, R31). -/

namespace Sys2Proof.Machine

/-! ### Registers -/

/-- R[i] (R10, R21): reading a general register never faults and has no side effect. -/
def State.readReg (s : State) (r : RegIdx) : Word := s.regs[r.toNat]'r.isLt

/-- WriteReg(i, v) (R10, R24): the only way an instruction writes a general register; it sets CC from v. -/
def State.writeReg (s : State) (r : RegIdx) (v : Word) : State :=
  { s with regs := s.regs.set r.toNat v r.isLt, cc := ccOf v }

/-- pc <- target (R10, R22): no condition code is updated. -/
def State.setPc (s : State) (target : Word) : State := { s with pc := target }

/-- PC <- PC + 1 modulo 65536 (R23): "every handler increments PC first". -/
def State.advancePc (s : State) : State := s.setPc (s.pc + 1#16)

/-! ### The run state -/

/-- raise F(info) (R10, R152): the run state becomes FAULTED with the record, whose pc is fetch_pc. Every effect before
it stays. This is the machine's one way into a fault; nothing returns from it. -/
def State.raise (s : State) (cause : FaultCause) (fetchPc : Word) : State :=
  { s with run := .faulted ⟨cause, fetchPc⟩ }

/-- halt (R10, R127): the run state becomes HALTED. -/
def State.halt (s : State) : State := { s with run := .halted }

/-- Trap entry (R157): the return address PC(next) goes to R7 and CC follows from that write; no mode, mask or stack
changes. -/
def State.enterTrap (s : State) : State := s.writeReg 7#3 s.pc

/-- The fault record: none before any fault (R152). -/
def State.faultRecord (s : State) : Option FaultRecord :=
  match s.run with
  | .faulted r => some r
  | .running => none
  | .halted => none

/-- The cause code of a fault (R155, D34). -/
def FaultCause.code : FaultCause → Nat
  | .unimplementedOpcode _ => 1
  | .unimplementedDevice _ _ _ => 2
  | .unrecognizedTrapVector _ => 3

/-- The cause code of a state: 0 is no fault (R155). -/
def State.causeCode (s : State) : Nat :=
  match s.faultRecord with
  | some r => r.cause.code
  | none => 0

/-- The opcode a fault record holds, if its cause has one (R150, R151, R152). -/
def FaultCause.opcodeField : FaultCause → Option (BitVec 4)
  | .unimplementedOpcode op => some op
  | .unimplementedDevice _ _ op => op
  | .unrecognizedTrapVector _ => none

/-- The vector a fault record holds, if its cause has one (R152, R153). -/
def FaultCause.vectorField : FaultCause → Option (BitVec 8)
  | .unimplementedOpcode _ => none
  | .unimplementedDevice _ _ _ => none
  | .unrecognizedTrapVector vector => some vector

/-- The address a fault record holds, if its cause has one (R151, R152). -/
def FaultCause.addressField : FaultCause → Option Word
  | .unimplementedOpcode _ => none
  | .unimplementedDevice address _ _ => some address
  | .unrecognizedTrapVector _ => none

/-- The access kind a fault record holds, if its cause has one (R151, R152). -/
def FaultCause.accessField : FaultCause → Option Access
  | .unimplementedOpcode _ => none
  | .unimplementedDevice _ access _ => some access
  | .unrecognizedTrapVector _ => none

/-- The exit outcome the host maps the end of a run to: HALTED to a normal exit, 0, and FAULTED to EXIT_FATAL (R13,
D24); none while RUNNING. -/
def State.exitCode (s : State) : Option Nat :=
  match s.run with
  | .running => none
  | .halted => some 0
  | .faulted _ => some s.params.exitFatal

/-! ### Memory -/

/-- M[a] (R43): a plain array access. -/
def Memory.read : Memory → Word → Word
  | [], _ => Memory.unlisted
  | (b, v) :: m, a => if b = a.toNat then v else Memory.read m a

/-- M[a] <- v (R43), keeping the canonical form. -/
def Memory.write : Memory → Word → Word → Memory
  | [], a, v => if v = Memory.unlisted then [] else [(a.toNat, v)]
  | (b, u) :: m, a, v =>
    if a.toNat < b then (if v = Memory.unlisted then (b, u) :: m else (a.toNat, v) :: (b, u) :: m)
    else if a.toNat = b then (if v = Memory.unlisted then m else (a.toNat, v) :: m)
    else (b, u) :: Memory.write m a v

/-- The address is in DEVICE_ADDRS (R46). -/
def State.isDevice (s : State) (a : Word) : Bool := s.params.deviceAddrs.contains a

/-- The value dev_read returns now: a free value (R47). -/
def State.deviceValue (s : State) (a : Word) : Word := Config.deviceValue s.draws a

/-- The host has drawn one more value. -/
def State.drawn (s : State) : State := { s with draws := s.draws + 1 }

/-- MemRead (R44): the value and the state after it, or none where it raises UnimplementedDevice. -/
def State.readCell (s : State) (a : Word) : Option (Word × State) :=
  if s.isDevice a then
    if s.params.deviceAttached then some (s.deviceValue a, s.drawn) else none
  else some (s.mem.read a, s)

/-- dev_write (R15, R47): the pair goes to the host; nothing of the engine changes. -/
def State.sendDevice (s : State) (a v : Word) : State := { s with deviceOut := s.deviceOut ++ [(a, v)] }

/-- M[a] <- v in a state (R43). -/
def State.writeMem (s : State) (a v : Word) : State := { s with mem := s.mem.write a v }

/-- MemWrite (R45): the state after it, or none where it raises UnimplementedDevice. -/
def State.writeCell (s : State) (a v : Word) : Option State :=
  if s.isDevice a then
    if s.params.deviceAttached then some (s.sendDevice a v) else none
  else some (s.writeMem a v)

/-- A data read inside the handler of opcode `op`, the rest of the handler being `k`. A faulting access ends the step:
the statements after it do not run (R151, R152). -/
def State.load (s : State) (op : Opcode) (fetchPc a : Word) (k : Word → State → Result) : Result :=
  match s.readCell a with
  | some (v, s') => k v s'
  | none => .next (s.raise (.unimplementedDevice a .read (some (opcodeBits op))) fetchPc)

/-- A data write inside the handler of opcode `op`, the last statement of every handler that stores (R151, R152). -/
def State.store (s : State) (op : Opcode) (fetchPc a v : Word) : Result :=
  match s.writeCell a v with
  | some s' => .next s'
  | none => .next (s.raise (.unimplementedDevice a .write (some (opcodeBits op))) fetchPc)

/-! ### The console port -/

/-- Console.writeChar(c) (R14): one 16-bit value goes out. -/
def State.writeChar (s : State) (c : Word) : State := { s with consoleOut := s.consoleOut ++ [c] }

/-- Console.writeChar of each value in turn (R125, R127). -/
def State.writeChars (s : State) (cs : List Word) : State := cs.foldl State.writeChar s

/-- The values left standing ready for readChar. -/
def State.setReady (s : State) (rest : List Word) : State := { s with consoleIn := rest }

/-- The TRAP step stays inside a routine, with every effect before it standing (R32, R158). -/
def State.suspend (s : State) (r : Routine) : State := { s with routine := some r }

/-- The engine takes up the routine it was suspended in; nothing else changes. -/
def State.resumed (s : State) : State := { s with routine := none }

/-- Console.readChar() (R14, R158): the oldest value standing ready; when none does, the host's next answer, which is a
free value; none while the console does not answer. -/
def State.readChar (s : State) : Option Word × State :=
  match s.consoleIn with
  | c :: rest => (some c, s.setReady rest)
  | [] => (Config.consoleAnswer s.draws, s.drawn)

/-- A readChar inside the trap routine `r`, the rest of the routine being `k`: while the console does not answer, the
engine stays suspended in `r`, the TRAP step not complete (R122, R158). -/
def State.awaitChar (s : State) (r : Routine) (k : Word → State → Result) : Result :=
  match s.readChar with
  | (some c, s') => k c s'
  | (none, s') => .next (s'.suspend r)

/-! ### The gates of a step -/

/-- A step is enabled only in RUNNING (R30, R31). -/
def State.whenRunning (s : State) (k : Result) : Result :=
  match s.run with
  | .running => k
  | .halted => .fault .halted
  | .faulted r => .fault (.faulted r)

/-- The instruction fetch, a MemRead at PC (R31, R44). If it faults, PC keeps fetch_pc. -/
def State.fetch (s : State) (k : Word → State → Result) : Result :=
  match s.readCell s.pc with
  | some (w, s') => k w s'
  | none => .next (s.raise (.unimplementedDevice s.pc .fetch none) s.pc)

/-- With STRICT_DECODE = true a word with other unread bits is refused; by default none is (R65). -/
def State.acceptWord (s : State) (w : Word) (k : Result) : Result :=
  if wordWellFormed s.params.strictDecode w then k else .refused (.strictDecode w)

/-- The word placed where the next fetch reads it: the cell at PC, with the engine between two steps of the spec. -/
def State.placeAtPc (s : State) (w : Word) : State := s.resumed.writeMem s.pc w

end Sys2Proof.Machine
end

