-- ==== Sys2Proof/Machine/Operands.lean ====
section
/-! DEFINITION. Extensions and operand forms: spec/00_scope.md R8, spec/30_encoding.md R62, R64, and the addressing
modes of spec/42_loadstore.md R107. -/

namespace Sys2Proof.Machine

/-- sext_16 (R8): sign extension of a field to 16 bits. -/
def sext16 {n : Nat} (f : BitVec n) : Word := f.signExtend 16

/-- zext_16 (R8): zero extension to 16 bits. -/
def zext16 {n : Nat} (f : BitVec n) : Word := f.setWidth 16

/-- The PC-relative address PC(next) + sext_16(offset) (R62, R107), in a state whose PC is PC(next). -/
def State.pcRelative {n : Nat} (s : State) (offset : BitVec n) : Word := s.pc + sext16 offset

/-- The address R[BaseR] + sext_16(offset6) (R107). -/
def State.baseOffset (s : State) (baseR : RegIdx) (offset6 : BitVec 6) : Word := s.readReg baseR + sext16 offset6

end Sys2Proof.Machine
end

