-- ==== Sys2Proof/Machine/Control.lean ====
section
/-! DEFINITION. BR, JMP, JSR and JSRR: spec/41_control.md R90 to R94. -/

namespace Sys2Proof.Machine

/-- BR (R90). -/
def execBr (nzp : BitVec 3) (pcOffset9 : BitVec 9) (s : State) : Result :=
  let s1 := s.advancePc
  if ccMeets nzp s1.cc then .next (s1.setPc (s1.pcRelative pcOffset9)) else .next s1

/-- JMP (R91); RET is JMP R7. -/
def execJmp (baseR : RegIdx) (s : State) : Result :=
  let s1 := s.advancePc
  .next (s1.setPc (s1.readReg baseR))

/-- JSR (R92): WriteReg(7, PC(next)), then the PC-relative target. -/
def execJsr (pcOffset11 : BitVec 11) (s : State) : Result :=
  let s1 := s.advancePc
  let s2 := s1.writeReg 7#3 s1.pc
  .next (s2.setPc (s2.pcRelative pcOffset11))

/-- JSRR (R93): WriteReg(7, PC(next)), and BaseR is read after it (D22). -/
def execJsrr (baseR : RegIdx) (s : State) : Result :=
  let s1 := s.advancePc
  let s2 := s1.writeReg 7#3 s1.pc
  .next (s2.setPc (s2.readReg baseR))

end Sys2Proof.Machine
end

