-- ==== Sys2Proof/Machine/LoadStore.lean ====
section
/-! DEFINITION. LD, LDI, LDR, LEA, ST, STI and STR: spec/42_loadstore.md R100 to R107. -/

namespace Sys2Proof.Machine

/-- LD (R100). -/
def execLd (dr : RegIdx) (pcOffset9 : BitVec 9) (s : State) : Result :=
  let s1 := s.advancePc
  s1.load .ld s.pc (s1.pcRelative pcOffset9) fun v s2 => .next (s2.writeReg dr v)

/-- LDI (R101): the pointer read, then the data read. -/
def execLdi (dr : RegIdx) (pcOffset9 : BitVec 9) (s : State) : Result :=
  let s1 := s.advancePc
  s1.load .ldi s.pc (s1.pcRelative pcOffset9) fun p s2 =>
    s2.load .ldi s.pc p fun v s3 => .next (s3.writeReg dr v)

/-- LDR (R102). -/
def execLdr (dr baseR : RegIdx) (offset6 : BitVec 6) (s : State) : Result :=
  let s1 := s.advancePc
  s1.load .ldr s.pc (s1.baseOffset baseR offset6) fun v s2 => .next (s2.writeReg dr v)

/-- LEA (R103): no memory access. -/
def execLea (dr : RegIdx) (pcOffset9 : BitVec 9) (s : State) : Result :=
  let s1 := s.advancePc
  .next (s1.writeReg dr (s1.pcRelative pcOffset9))

/-- ST (R104). -/
def execSt (sr : RegIdx) (pcOffset9 : BitVec 9) (s : State) : Result :=
  let s1 := s.advancePc
  s1.store .st s.pc (s1.pcRelative pcOffset9) (s1.readReg sr)

/-- STI (R105): the pointer read, then the write. -/
def execSti (sr : RegIdx) (pcOffset9 : BitVec 9) (s : State) : Result :=
  let s1 := s.advancePc
  s1.load .sti s.pc (s1.pcRelative pcOffset9) fun p s2 => s2.store .sti s.pc p (s2.readReg sr)

/-- STR (R106). -/
def execStr (sr baseR : RegIdx) (offset6 : BitVec 6) (s : State) : Result :=
  let s1 := s.advancePc
  s1.store .str s.pc (s1.baseOffset baseR offset6) (s1.readReg sr)

end Sys2Proof.Machine
end

