-- ==== Sys2Proof/Machine/Operate.lean ====
section
/-! DEFINITION. ADD, AND and NOT: spec/40_operate.md R80 to R83. -/

namespace Sys2Proof.Machine

/-- An operate instruction: PC advances (R23), then WriteReg(DR, v) (R24). -/
def State.operate (s : State) (dr : RegIdx) (v : Word) : Result := .next (s.advancePc.writeReg dr v)

/-- ADD, register mode (R80). -/
def execAddReg (dr sr1 sr2 : RegIdx) (s : State) : Result := s.operate dr (s.readReg sr1 + s.readReg sr2)

/-- ADD, immediate mode (R80). -/
def execAddImm (dr sr1 : RegIdx) (imm5 : BitVec 5) (s : State) : Result := s.operate dr (s.readReg sr1 + sext16 imm5)

/-- AND, register mode (R81). -/
def execAndReg (dr sr1 sr2 : RegIdx) (s : State) : Result := s.operate dr (s.readReg sr1 &&& s.readReg sr2)

/-- AND, immediate mode (R81). -/
def execAndImm (dr sr1 : RegIdx) (imm5 : BitVec 5) (s : State) : Result := s.operate dr (s.readReg sr1 &&& sext16 imm5)

/-- NOT (R82). -/
def execNot (dr sr : RegIdx) (s : State) : Result := s.operate dr (~~~ s.readReg sr)

end Sys2Proof.Machine
end

