-- ==== Sys2Proof/Machine/Reserved.lean ====
section
/-! DEFINITION. RTI and RES: spec/44_reserved.md R140 and R141. Both take the fault UnimplementedOpcode: a next state
whose run state is FAULTED, PC at PC(next) (D21). -/

namespace Sys2Proof.Machine

/-- Executing an unimplemented opcode (R150). -/
def State.unimplemented (s : State) (op : Opcode) : Result :=
  .next (s.advancePc.raise (.unimplementedOpcode (opcodeBits op)) s.pc)

/-- RTI (R140). -/
def execRti (s : State) : Result := s.unimplemented .rti

/-- RES (R141). -/
def execRes (s : State) : Result := s.unimplemented .res

end Sys2Proof.Machine
end

