-- ==== Sys2Proof/Machine/Trap.lean ====
section
/-! DEFINITION. TRAP and the trap dispatcher: spec/43_trap.md R120 to R129. A routine runs inside the TRAP step, on the
state after trap entry, and writes no PC (R129). Where a routine waits, the engine is suspended in it and a later step of
the model takes it up (R32, R158). -/

namespace Sys2Proof.Machine

/-- GETC (R122): the whole 16-bit value goes to R0, nothing is written to the console. -/
def trapGetc (s : State) : Result := s.awaitChar .getc fun c s1 => .next (s1.writeReg 0#3 c)

/-- OUT (R123): the full 16-bit R0 goes out. -/
def trapOut (s : State) : Result := .next (s.writeChar (s.readReg 0#3))

/-- A whole lap of the address space (R40): as many reads as a scan can make before it reads a cell again, and as many
as one step of the model makes. With no device attached a scan meets KBSR_ADDR within a lap; with one it may go on, for
ever even (R124, D19). DESIGN CHOICE, unsafe: notes/assumptions/7.md. -/
def scanLap : Nat := 65536

/-- The loop of PUTS (R124) from address a; after the given number of reads the engine stays suspended in it. -/
def putsScan : Nat → Word → Word → State → Result
  | 0, _, a, s => .next (s.suspend (.puts a))
  | n + 1, fetchPc, a, s =>
    s.load .trap fetchPc a fun c s1 =>
      if c = 0x0000#16 then .next s1 else putsScan n fetchPc (a + 1#16) (s1.writeChar c)

/-- PUTS (R124): one character per word from the address in R0. -/
def trapPuts (fetchPc : Word) (s : State) : Result := putsScan scanLap fetchPc (s.readReg 0#3) s

/-- IN after its prompt (R125): the character, its echo, then R0. -/
def trapInEcho (s : State) : Result := s.awaitChar .inEcho fun c s1 => .next ((s1.writeChar c).writeReg 0#3 c)

/-- IN (R125): the prompt, then the character. -/
def trapIn (s : State) : Result := trapInEcho (s.writeChars s.params.inPrompt)

/-- The loop of PUTSP (R126) from address a: low byte first, up to the first zero byte; after the given number of reads
the engine stays suspended in it. -/
def putspScan : Nat → Word → Word → State → Result
  | 0, _, a, s => .next (s.suspend (.putsp a))
  | n + 1, fetchPc, a, s =>
    s.load .trap fetchPc a fun c s1 =>
      let low := field c 0 8
      let high := field c 8 8
      if low = 0x00#8 then .next s1
      else if high = 0x00#8 then .next (s1.writeChar (zext16 low))
      else putspScan n fetchPc (a + 1#16) ((s1.writeChar (zext16 low)).writeChar (zext16 high))

/-- PUTSP (R126): two characters per word from the address in R0. -/
def trapPutsp (fetchPc : Word) (s : State) : Result := putspScan scanLap fetchPc (s.readReg 0#3) s

/-- HALT (R127): the message, then the run state becomes HALTED. -/
def trapHalt (s : State) : Result := .next ((s.writeChars s.params.haltMessage).halt)

/-- TrapTable[v]() or UnrecognizedTrapVector (R121, R128). The vector is an identifier (R63, C5). The vector
numbers are general knowledge by the spec's own words (D2). PRESUMED by the spec, unsafe: notes/assumptions/14.md. -/
def trapDispatch (vector : BitVec 8) (fetchPc : Word) (s : State) : Result :=
  match vector.toNat with
  | 0x20 => trapGetc s
  | 0x21 => trapOut s
  | 0x22 => trapPuts fetchPc s
  | 0x23 => trapIn s
  | 0x24 => trapPutsp fetchPc s
  | 0x25 => trapHalt s
  | _ => .next (s.raise (.unrecognizedTrapVector vector) fetchPc)

/-- TRAP (R120): R7 is written before the vector is looked up. -/
def execTrap (trapvect8 : BitVec 8) (s : State) : Result :=
  trapDispatch trapvect8 s.pc s.advancePc.enterTrap

/-- fetch_pc of the TRAP a state is suspended inside of: PC holds PC(next) there (R23, R129). -/
def State.trapFetchPc (s : State) : Word := s.pc - 1#16

/-- The rest of a routine, from where the engine was suspended in it (R32, R158). -/
def resumeRoutine (r : Routine) (s : State) : Result :=
  match r with
  | .getc => trapGetc s
  | .inEcho => trapInEcho s
  | .puts a => putsScan scanLap s.trapFetchPc a s
  | .putsp a => putspScan scanLap s.trapFetchPc a s

/-- A step goes on inside the routine the engine is suspended in, if it is suspended; else it is `k`. -/
def State.resumeOr (s : State) (k : Result) : Result :=
  match s.routine with
  | none => k
  | some r => resumeRoutine r s.resumed

end Sys2Proof.Machine
end

