-- ==== Sys2Proof/Machine/Step.lean ====
section
/-! DEFINITION. One step of the engine: spec/10_state.md R31. -/

namespace Sys2Proof.Machine

/-- One step (R31): enabled only in RUNNING (R30); fetch the word at PC through MemRead; decode it; run its handler,
which advances PC first (R23). In a state suspended inside a trap routine the step goes on with that routine (R158). -/
def step (s : State) : Host.Outcome State Fault Refusal :=
  s.whenRunning (s.resumeOr (s.fetch fun w s1 => s1.acceptWord w (exec (decode w) s1)))

/-- The state with a table word of `nbits` bits stored in the cell at PC, where step fetches its next instruction. It
stands for a load of that word from outside (notes/assumptions/10.md). -/
def State.withFetchWord (s : State) (nbits w : Nat) : State := s.placeAtPc (BitVec.ofNat 16 (w % 2 ^ nbits))

end Sys2Proof.Machine
end

