-- ==== Sys2Proof/Machine/Load.lean ====
section
/-! DEFINITION. The load port and the start of a session: spec/00_scope.md R12, spec/70_reset_and_hazards.md R170, R171
and R173. It runs before the first step; no step calls it. -/

namespace Sys2Proof.Machine

/-- LoadError (R12, R154, R173): the image is truncated (shorter than two bytes, or of odd length), or does not fit
below 65536. DESIGN CHOICE, safe: notes/assumptions/15.md. -/
inductive LoadError where
  | truncated
  | doesNotFit
  deriving DecidableEq, Repr

/-- A little-endian 16-bit word (R12, R48): the low byte comes first. -/
def littleEndian (low high : Byte) : Word := high ++ low

/-- The words of an image written one after another from address a, raw, not through MemWrite (R173, D28). -/
def loadWords : List Byte → Word → Memory → Memory
  | low :: high :: rest, a, m => loadWords rest (a + 1#16) (m.write a (littleEndian low high))
  | _, _, m => m

/-- loadImage (R173). -/
def loadImage (image : List Byte) (m : Memory) : Except LoadError Memory :=
  match image with
  | low :: high :: rest =>
    if rest.length % 2 = 1 then .error .truncated
    else if (littleEndian low high).toNat + rest.length / 2 > 65536 then .error .doesNotFit
    else .ok (loadWords rest (littleEndian low high) m)
  | _ => .error .truncated

/-- The start of a session (R170): with LoadError it ends without executing, and there is no state to run. The first
fetch is at 0x3000 whatever the origin (R171). `memInit` is MEM_INIT (R41). -/
def State.boot (p : Params) (memInit : Memory) (image : List Byte) : Except LoadError State :=
  match loadImage image memInit with
  | .ok m => .ok (State.initial p m)
  | .error e => .error e

end Sys2Proof.Machine
end

