-- ==== Sys2Proof/Machine/Observe.lean ====
section
/-! DEFINITION. What a host sees of the engine, and when: spec/10_state.md R32, spec/00_scope.md R13,
spec/60_exceptions.md R158, R166, and spec/92_eei_decisions.md D27, D30. The spec's step goes from one point a host can
see to the next; a step of the model may end at a point no host can see (notes/assumptions/7.md), and then the spec's
step is not over. -/

namespace Sys2Proof.Machine

/-- The wait in readChar "is the only point inside a step that a host can see" (R32): inside a scan it sees none. -/
def Routine.seen : Routine → Bool
  | .getc => true
  | .inEcho => true
  | .puts _ => false
  | .putsp _ => false

/-- A host can observe the engine here: "Between steps, while blocked in readChar, and at the end of a run" (D30). -/
def State.seen (s : State) : Bool :=
  match s.routine with
  | none => true
  | some r => r.seen

/-- What a host sees of the engine: the state R32 lists, the status port's run state and fault record (R13), whether the
engine waits in readChar (R32), and what came out at the ports until then (R14, R15). The routine that waits, the draws
and the values still ready at the console are no part of it. DESIGN CHOICE, unsafe: notes/assumptions/18.md. -/
structure HostView where
  regs : Vector Word 8
  pc : Word
  cc : BitVec 3
  mem : Memory
  run : RunState
  waiting : Bool
  consoleOut : List Word
  deviceOut : List (Word × Word)
  deriving DecidableEq, Repr

/-- What a host sees in a state; nothing where it can see none (R32, D30). -/
def State.hostView (s : State) : Option HostView :=
  if s.seen then
    some { regs := s.regs, pc := s.pc, cc := s.cc, mem := s.mem, run := s.run, waiting := s.routine.isSome,
           consoleOut := s.consoleOut, deviceOut := s.deviceOut }
  else none

/-- From s the engine gets to t, the next point a host can see (R11, R32): over as many steps of the model as end inside
a scan. A scan that never ends gets to no such point (R124, R167). -/
inductive HostStep : State → State → Prop where
  | seen {s t : State} (h : step s = .next t) (ht : t.seen = true) : HostStep s t
  | unseen {s u t : State} (h : step s = .next u) (hu : u.seen = false) (ht : HostStep u t) : HostStep s t

end Sys2Proof.Machine
end

