-- ==== Sys2Proof/Safety.lean ====
section
/-! DEFINITION. The terms claims are written in: the invariant every step keeps, the end of a run (spec/60_exceptions.md
R167), and what an instruction may do to a state, said field by field without the model's own update functions. -/

namespace Sys2Proof.Machine

/-- A scan is suspended only with a device attached: without one it faults at KBSR_ADDR within a lap (R124). -/
def Routine.possible (p : Params) : Routine → Bool
  | .getc => true
  | .inEcho => true
  | .puts _ => p.deviceAttached
  | .putsp _ => p.deviceAttached

/-- What holds while the engine is suspended inside a trap routine: it is RUNNING (R158), and R7 and CC are as TRAP's
write of PC(next) left them (R120). -/
def State.routineLegal (s : State) : Bool :=
  match s.routine with
  | none => true
  | some r => r.possible s.params && s.run == .running && s.readReg 7#3 == s.pc && s.cc == ccOf s.pc

/-- The invariant of the machine: memory in its canonical form, CC holding no flag or exactly one (R26), and a suspended
routine as TRAP left it. -/
def State.Inv (s : State) : Prop := s.mem.wf = true ∧ ccLegal s.cc = true ∧ s.routineLegal = true

/-- A run has ended: HALTED or FAULTED (R167). -/
def State.ended (s : State) : Bool := s.run != .running

/-- A state of a safe run: no fault has been raised (R152). -/
def State.notFaulted (s : State) : Bool := s.faultRecord == none

/-- CC as SetCC(v) leaves it (R25): Z for zero, N for a set sign bit, else P. -/
def CcShows (v : Word) (cc : BitVec 3) : Prop :=
  cc = if v = 0x0000#16 then 0b010#3 else if v.getLsbD 15 = true then 0b100#3 else 0b001#3

/-- The 16-bit two's complement of a field's signed value (R8, R62). -/
def signed {n : Nat} (f : BitVec n) : Word := BitVec.ofInt 16 f.toInt

/-- Every cell of memory reads as before. -/
def SameMemory (s t : State) : Prop := ∀ a, t.mem.read a = s.mem.read a

/-- Every cell of memory but the one at a reads as before. -/
def SameMemoryBut (s t : State) (a : Word) : Prop := ∀ b, b ≠ a → t.mem.read b = s.mem.read b

/-- Every general register but those listed reads as before. -/
def SameRegsBut (s t : State) (rs : List RegIdx) : Prop := ∀ r, r ∉ rs → t.readReg r = s.readReg r

/-- Nothing went in or out at a port, the parameters stand, and no trap routine was entered or left. -/
def SamePorts (s t : State) : Prop :=
  t.consoleIn = s.consoleIn ∧ t.consoleOut = s.consoleOut ∧ t.deviceOut = s.deviceOut ∧ t.draws = s.draws ∧
    t.params = s.params ∧ t.routine = s.routine

/-- The one effect beside PC is WriteReg(dr, v) (R24): the register, CC from the value, and nothing else. -/
def WritesReg (s t : State) (dr : RegIdx) (v : Word) : Prop :=
  t.readReg dr = v ∧ CcShows v t.cc ∧ SameRegsBut s t [dr] ∧ SameMemory s t ∧ t.run = s.run ∧ SamePorts s t

/-- The one effect is on PC. -/
def WritesOnlyPc (s t : State) : Prop :=
  SameRegsBut s t [] ∧ t.cc = s.cc ∧ SameMemory s t ∧ t.run = s.run ∧ SamePorts s t

/-- MemRead(a) raises UnimplementedDevice: a device address, no device attached (R44, R46). -/
def Denied (s : State) (a : Word) : Prop := a ∈ s.params.deviceAddrs ∧ s.params.deviceAttached = false

/-- MemRead(a) gives v and leaves s' (R44): the cell's value at a plain address; a value the host draws, which the model
leaves free, at a device address with a device attached (R47). -/
def Reads (s : State) (a v : Word) (s' : State) : Prop :=
  (a ∉ s.params.deviceAddrs ∧ v = s.mem.read a ∧ s' = s) ∨
  (a ∈ s.params.deviceAddrs ∧ s.params.deviceAttached = true ∧ v = Config.deviceValue s.draws a ∧
    s' = { s with draws := s.draws + 1 })

/-- MemRead of consecutive cells from a on, wrapping at 65536, gives the listed values and leaves t (R124, R126). -/
def ReadsAll (s : State) (a : Word) : List Word → State → Prop
  | [], t => t = s
  | c :: cs, t => ∃ s', Reads s a c s' ∧ ReadsAll s' (a + 1#16) cs t

/-- An instruction at s.pc raised UnimplementedDevice inside its handler: the record, PC at PC(next), nothing else
(R151, R152, D21). -/
def DeviceFault (s t : State) (a : Word) (access : Access) (op : BitVec 4) : Prop :=
  t.run = .faulted ⟨.unimplementedDevice a access (some op), s.pc⟩ ∧ t.pc = s.pc + 1#16 ∧
    SameRegsBut s t [] ∧ t.cc = s.cc ∧ SameMemory s t ∧ SamePorts s t

/-- MemWrite(a, v) of an instruction, from s to t (R45): the cell at a plain address; the device port at a device
address with a device attached. No register, no flag, and no other cell changes. -/
def Stores (s t : State) (a v : Word) : Prop :=
  t.pc = s.pc + 1#16 ∧ SameRegsBut s t [] ∧ t.cc = s.cc ∧ t.run = s.run ∧ t.consoleIn = s.consoleIn ∧
    t.consoleOut = s.consoleOut ∧ t.draws = s.draws ∧ t.params = s.params ∧
    t.routine = s.routine ∧
    ((a ∉ s.params.deviceAddrs ∧ (s.mem.wf = true → t.mem.read a = v) ∧ SameMemoryBut s t a ∧
        t.deviceOut = s.deviceOut) ∨
      (a ∈ s.params.deviceAddrs ∧ s.params.deviceAttached = true ∧ SameMemory s t ∧
        t.deviceOut = s.deviceOut ++ [(a, v)]))

/-- What TRAP has done before its routine, and what no routine undoes (R120, R129): PC and R7 at PC(next), memory and
the device output as before. -/
def TrapEntered (s t : State) : Prop :=
  t.pc = s.pc + 1#16 ∧ t.readReg 7#3 = s.pc + 1#16 ∧ SameMemory s t ∧ t.deviceOut = s.deviceOut ∧ t.params = s.params

/-- TRAP entry and a routine that writes no register: R7 and CC from PC(next), every other register as before. -/
def TrapKeepsRegs (s t : State) : Prop :=
  TrapEntered s t ∧ CcShows (s.pc + 1#16) t.cc ∧ SameRegsBut s t [7#3]

/-- TRAP entry and a routine that puts c into R0: R0 and CC from c, every register but R0 and R7 as before. -/
def TrapWritesR0 (s t : State) (c : Word) : Prop :=
  TrapEntered s t ∧ t.readReg 0#3 = c ∧ CcShows c t.cc ∧ SameRegsBut s t [0#3, 7#3]

/-- The two bytes of a word, each zero-extended, low byte first (R126). -/
def packedBytes (w : Word) : List Word := [BitVec.ofNat 16 (w.toNat % 256), BitVec.ofNat 16 (w.toNat / 256)]

/-- What a suspended routine leaves alone when it goes on: PC, memory, the device output, the parameters. -/
def RoutineKeeps (s t : State) : Prop :=
  t.pc = s.pc ∧ SameMemory s t ∧ t.deviceOut = s.deviceOut ∧ t.params = s.params

/-- A suspended GETC or IN got its character c: R0 and CC from c, no other register, and the TRAP step is complete. -/
def CharArrives (s t : State) (c : Word) : Prop :=
  RoutineKeeps s t ∧ t.readReg 0#3 = c ∧ CcShows c t.cc ∧ SameRegsBut s t [0#3] ∧ t.run = s.run ∧ t.routine = none

/-- A suspended scan goes on and writes no register and no flag. -/
def ScanKeeps (s t : State) : Prop :=
  RoutineKeeps s t ∧ SameRegsBut s t [] ∧ t.cc = s.cc ∧ t.consoleIn = s.consoleIn

/-- What PUTS's loop from address a does to the console, the draws, the run state and the routine (R124), `cs` being the
words it writes: it meets a zero word; or a device address with no device attached; or, after a whole lap of the address
space, neither, and the engine stays suspended in it at that address, where the lap began. -/
def PutsScanned (fetchPc a : Word) (s t : State) : Prop :=
  ∃ cs s', (∀ c ∈ cs, c ≠ 0x0000#16) ∧ t.consoleOut = s.consoleOut ++ cs ∧ t.draws = s'.draws ∧
    ((ReadsAll s a (cs ++ [0x0000#16]) s' ∧ cs.length < 65536 ∧ t.run = s.run ∧ t.routine = s.routine) ∨
     (ReadsAll s a cs s' ∧ cs.length < 65536 ∧ Denied s (a + BitVec.ofNat 16 cs.length) ∧ t.routine = s.routine ∧
        t.run = .faulted
          ⟨.unimplementedDevice (a + BitVec.ofNat 16 cs.length) .read (some 0xF#4), fetchPc⟩) ∨
     (ReadsAll s a cs s' ∧ cs.length = 65536 ∧ t.run = s.run ∧ t.routine = some (.puts a)))

/-- The same of PUTSP's loop (R126), `ws` being the words both of whose bytes it writes and z the word that ends it. -/
def PutspScanned (fetchPc a : Word) (s t : State) : Prop :=
  ∃ ws s', (∀ w ∈ ws, w.toNat % 256 ≠ 0 ∧ w.toNat / 256 ≠ 0) ∧ t.draws = s'.draws ∧
    ((∃ z : Word, (z.toNat % 256 = 0 ∨ z.toNat / 256 = 0) ∧ ReadsAll s a (ws ++ [z]) s' ∧ ws.length < 65536 ∧
        t.consoleOut = s.consoleOut ++ ws.flatMap packedBytes ++
          (if z.toNat % 256 = 0 then [] else [BitVec.ofNat 16 (z.toNat % 256)]) ∧
        t.run = s.run ∧ t.routine = s.routine) ∨
     (ReadsAll s a ws s' ∧ ws.length < 65536 ∧ Denied s (a + BitVec.ofNat 16 ws.length) ∧ t.routine = s.routine ∧
        t.consoleOut = s.consoleOut ++ ws.flatMap packedBytes ∧
        t.run = .faulted
          ⟨.unimplementedDevice (a + BitVec.ofNat 16 ws.length) .read (some 0xF#4), fetchPc⟩) ∨
     (ReadsAll s a ws s' ∧ ws.length = 65536 ∧ t.consoleOut = s.consoleOut ++ ws.flatMap packedBytes ∧
        t.run = s.run ∧ t.routine = some (.putsp a)))

end Sys2Proof.Machine
end

