-- ==== Sys2Proof/Certificates/Slice0/Obligations.lean ====
section
/-! DEFINITION. The statements for the provers. Each docstring names the rules of spec/ it formalises. The vocabulary
(WritesReg, Reads, Denied, Stores, TrapEntered ...) is Sys2Proof/Safety.lean's. exec runs on the state at the
instruction's own address, so PC(next) is s.pc + 1 (R23). -/

open Sys2Proof Sys2Proof.Machine

/-! ### Operate instructions -/

/-- R80. ADD in both modes: the sum modulo 65536 goes to DR, CC follows, nothing else changes but PC. -/
def Obligations.AddWritesSumModulo65536 : Prop :=
  (∀ w : Word, w.extractLsb' 12 4 = 0x1#4 → decode w =
    if w.getLsbD 5 = true then .addImm (w.extractLsb' 9 3) (w.extractLsb' 6 3) (w.extractLsb' 0 5)
    else .addReg (w.extractLsb' 9 3) (w.extractLsb' 6 3) (w.extractLsb' 0 3)) ∧
  (∀ (dr sr1 sr2 : RegIdx) (s : State), ∃ t, exec (.addReg dr sr1 sr2) s = .next t ∧ t.pc = s.pc + 1#16 ∧
    WritesReg s t dr (BitVec.ofNat 16 (((s.readReg sr1).toNat + (s.readReg sr2).toNat) % 65536))) ∧
  (∀ (dr sr1 : RegIdx) (imm5 : BitVec 5) (s : State), ∃ t, exec (.addImm dr sr1 imm5) s = .next t ∧
    t.pc = s.pc + 1#16 ∧
    WritesReg s t dr (BitVec.ofNat 16 (((s.readReg sr1).toNat + (signed imm5).toNat) % 65536)))

/-- R81. AND in both modes: DR is SR1 & (SR2 or the sign-extended imm5), bitwise; CC follows. -/
def Obligations.AndWritesBitwiseConjunction : Prop :=
  (∀ w : Word, w.extractLsb' 12 4 = 0x5#4 → decode w =
    if w.getLsbD 5 = true then .andImm (w.extractLsb' 9 3) (w.extractLsb' 6 3) (w.extractLsb' 0 5)
    else .andReg (w.extractLsb' 9 3) (w.extractLsb' 6 3) (w.extractLsb' 0 3)) ∧
  (∀ (dr sr1 sr2 : RegIdx) (s : State), ∃ t, exec (.andReg dr sr1 sr2) s = .next t ∧ t.pc = s.pc + 1#16 ∧
    WritesReg s t dr (s.readReg sr1 &&& s.readReg sr2)) ∧
  (∀ (dr sr1 : RegIdx) (imm5 : BitVec 5) (s : State), ∃ t, exec (.andImm dr sr1 imm5) s = .next t ∧
    t.pc = s.pc + 1#16 ∧ WritesReg s t dr (s.readReg sr1 &&& signed imm5))

/-- R82. NOT: DR is the complement of SR within 16 bits; CC follows. -/
def Obligations.NotWritesComplement : Prop :=
  (∀ w : Word, w.extractLsb' 12 4 = 0x9#4 → decode w = .notReg (w.extractLsb' 9 3) (w.extractLsb' 6 3)) ∧
  (∀ (dr sr : RegIdx) (s : State), ∃ t, exec (.notReg dr sr) s = .next t ∧ t.pc = s.pc + 1#16 ∧
    WritesReg s t dr (BitVec.ofNat 16 (65535 - (s.readReg sr).toNat)))

/-- R83. "subtraction is written NOT plus ADD #1 plus ADD": the three steps leave a - b in the last destination, whatever
it is, where the two operands are different registers. -/
def Obligations.SubtractionFromNotAddAdd : Prop :=
  ∀ (a b d : RegIdx) (s : State), a ≠ b → ∃ t u v, exec (.notReg b b) s = .next t ∧ exec (.addImm b b 1#5) t = .next u ∧
    exec (.addReg d a b) u = .next v ∧ v.readReg d = s.readReg a - s.readReg b ∧
    CcShows (s.readReg a - s.readReg b) v.cc

/-! ### Control transfer -/

/-- R90. BR: taken exactly when a requested flag is set; only PC changes. -/
def Obligations.BrTakenWhenARequestedFlagIsSet : Prop :=
  (∀ w : Word, w.extractLsb' 12 4 = 0x0#4 → decode w = .br (w.extractLsb' 9 3) (w.extractLsb' 0 9)) ∧
  (∀ (nzp : BitVec 3) (off : BitVec 9) (s : State), ∃ t, exec (.br nzp off) s = .next t ∧ WritesOnlyPc s t ∧
    t.pc = if nzp &&& s.cc ≠ 0b000#3 then s.pc + 1#16 + signed off else s.pc + 1#16)

/-- R91. JMP (and RET): PC is BaseR; only PC changes. -/
def Obligations.JmpSetsPcFromBaseRegister : Prop :=
  (∀ w : Word, w.extractLsb' 12 4 = 0xC#4 → decode w = .jmp (w.extractLsb' 6 3)) ∧
  (∀ (base : RegIdx) (s : State), ∃ t, exec (.jmp base) s = .next t ∧ WritesOnlyPc s t ∧ t.pc = s.readReg base)

/-- R92. JSR: R7 and CC from PC(next), PC the PC-relative target. -/
def Obligations.JsrLinksAndJumpsPcRelative : Prop :=
  (∀ w : Word, w.extractLsb' 12 4 = 0x4#4 → w.getLsbD 11 = true → decode w = .jsr (w.extractLsb' 0 11)) ∧
  (∀ (off : BitVec 11) (s : State), ∃ t, exec (.jsr off) s = .next t ∧ WritesReg s t 7#3 (s.pc + 1#16) ∧
    t.pc = s.pc + 1#16 + signed off)

/-- R93. JSRR: R7 and CC from PC(next), then PC from BaseR, read after the R7 write. -/
def Obligations.JsrrReadsBaseAfterTheLinkWrite : Prop :=
  (∀ w : Word, w.extractLsb' 12 4 = 0x4#4 → w.getLsbD 11 = false → decode w = .jsrr (w.extractLsb' 6 3)) ∧
  (∀ (base : RegIdx) (s : State), ∃ t, exec (.jsrr base) s = .next t ∧ WritesReg s t 7#3 (s.pc + 1#16) ∧
    t.pc = if base = 7#3 then s.pc + 1#16 else s.readReg base)

/-- R94. "JSR then JMP via R7 must return exactly to the instruction following the JSR": from any state that still holds
in R7 what the JSR, JSRR or TRAP left there. -/
def Obligations.RetReturnsAfterTheCall : Prop :=
  ∀ (i : Instr) (s t u : State), ((∃ off, i = .jsr off) ∨ (∃ base, i = .jsrr base) ∨ ∃ v, i = .trap v) →
    exec i s = .next t → u.readReg 7#3 = t.readReg 7#3 →
    ∃ v, exec (.jmp 7#3) u = .next v ∧ v.pc = s.pc + 1#16 ∧ WritesOnlyPc u v

/-! ### Loads, stores and LEA -/

/-- R100. LD. -/
def Obligations.LdLoadsThePcRelativeCell : Prop :=
  (∀ w : Word, w.extractLsb' 12 4 = 0x2#4 → decode w = .ld (w.extractLsb' 9 3) (w.extractLsb' 0 9)) ∧
  (∀ (dr : RegIdx) (off : BitVec 9) (s : State),
    (∀ v s', Reads s (s.pc + 1#16 + signed off) v s' →
      ∃ t, exec (.ld dr off) s = .next t ∧ t.pc = s.pc + 1#16 ∧ WritesReg s' t dr v) ∧
    (Denied s (s.pc + 1#16 + signed off) →
      ∃ t, exec (.ld dr off) s = .next t ∧ DeviceFault s t (s.pc + 1#16 + signed off) .read 0x2#4))

/-- R101. LDI: the pointer read, then the data read. -/
def Obligations.LdiLoadsThroughThePointerCell : Prop :=
  (∀ w : Word, w.extractLsb' 12 4 = 0xA#4 → decode w = .ldi (w.extractLsb' 9 3) (w.extractLsb' 0 9)) ∧
  (∀ (dr : RegIdx) (off : BitVec 9) (s : State),
    (∀ p s1 v s2, Reads s (s.pc + 1#16 + signed off) p s1 → Reads s1 p v s2 →
      ∃ t, exec (.ldi dr off) s = .next t ∧ t.pc = s.pc + 1#16 ∧ WritesReg s2 t dr v) ∧
    (Denied s (s.pc + 1#16 + signed off) →
      ∃ t, exec (.ldi dr off) s = .next t ∧ DeviceFault s t (s.pc + 1#16 + signed off) .read 0xA#4) ∧
    (∀ p s1, Reads s (s.pc + 1#16 + signed off) p s1 → Denied s1 p →
      ∃ t, exec (.ldi dr off) s = .next t ∧ DeviceFault s t p .read 0xA#4))

/-- R102. LDR: the base is read before the write. -/
def Obligations.LdrLoadsTheBasePlusOffsetCell : Prop :=
  (∀ w : Word, w.extractLsb' 12 4 = 0x6#4 →
    decode w = .ldr (w.extractLsb' 9 3) (w.extractLsb' 6 3) (w.extractLsb' 0 6)) ∧
  (∀ (dr base : RegIdx) (off : BitVec 6) (s : State),
    (∀ v s', Reads s (s.readReg base + signed off) v s' →
      ∃ t, exec (.ldr dr base off) s = .next t ∧ t.pc = s.pc + 1#16 ∧ WritesReg s' t dr v) ∧
    (Denied s (s.readReg base + signed off) →
      ∃ t, exec (.ldr dr base off) s = .next t ∧ DeviceFault s t (s.readReg base + signed off) .read 0x6#4))

/-- R103. LEA: the address goes to DR, CC follows, and no memory is accessed, so a device address does no harm. -/
def Obligations.LeaWritesTheAddressAndReadsNoMemory : Prop :=
  (∀ w : Word, w.extractLsb' 12 4 = 0xE#4 → decode w = .lea (w.extractLsb' 9 3) (w.extractLsb' 0 9)) ∧
  (∀ (dr : RegIdx) (off : BitVec 9) (s : State), ∃ t, exec (.lea dr off) s = .next t ∧ t.pc = s.pc + 1#16 ∧
    WritesReg s t dr (s.pc + 1#16 + signed off))

/-- R104. ST. -/
def Obligations.StStoresAtThePcRelativeCell : Prop :=
  (∀ w : Word, w.extractLsb' 12 4 = 0x3#4 → decode w = .st (w.extractLsb' 9 3) (w.extractLsb' 0 9)) ∧
  (∀ (sr : RegIdx) (off : BitVec 9) (s : State),
    (¬ Denied s (s.pc + 1#16 + signed off) →
      ∃ t, exec (.st sr off) s = .next t ∧ Stores s t (s.pc + 1#16 + signed off) (s.readReg sr)) ∧
    (Denied s (s.pc + 1#16 + signed off) →
      ∃ t, exec (.st sr off) s = .next t ∧ DeviceFault s t (s.pc + 1#16 + signed off) .write 0x3#4))

/-- R105. STI: the pointer read, then the write. -/
def Obligations.StiStoresThroughThePointerCell : Prop :=
  (∀ w : Word, w.extractLsb' 12 4 = 0xB#4 → decode w = .sti (w.extractLsb' 9 3) (w.extractLsb' 0 9)) ∧
  (∀ (sr : RegIdx) (off : BitVec 9) (s : State),
    (∀ p s1, Reads s (s.pc + 1#16 + signed off) p s1 → ¬ Denied s1 p →
      ∃ t, exec (.sti sr off) s = .next t ∧ Stores s1 t p (s.readReg sr)) ∧
    (Denied s (s.pc + 1#16 + signed off) →
      ∃ t, exec (.sti sr off) s = .next t ∧ DeviceFault s t (s.pc + 1#16 + signed off) .read 0xB#4) ∧
    (∀ p s1, Reads s (s.pc + 1#16 + signed off) p s1 → Denied s1 p →
      ∃ t, exec (.sti sr off) s = .next t ∧ DeviceFault s t p .write 0xB#4))

/-- R106. STR: offset6 is sign-extended; SR may be BaseR. -/
def Obligations.StrStoresAtTheBasePlusOffsetCell : Prop :=
  (∀ w : Word, w.extractLsb' 12 4 = 0x7#4 →
    decode w = .str (w.extractLsb' 9 3) (w.extractLsb' 6 3) (w.extractLsb' 0 6)) ∧
  (∀ (sr base : RegIdx) (off : BitVec 6) (s : State),
    (¬ Denied s (s.readReg base + signed off) →
      ∃ t, exec (.str sr base off) s = .next t ∧ Stores s t (s.readReg base + signed off) (s.readReg sr)) ∧
    (Denied s (s.readReg base + signed off) →
      ∃ t, exec (.str sr base off) s = .next t ∧ DeviceFault s t (s.readReg base + signed off) .write 0x7#4))

/-- R56. A store takes effect for the next fetch: a step at the cell that ST, STI or STR stored v to runs the instruction
v encodes. -/
def Obligations.StoreIsSeenByTheNextFetch : Prop :=
  ∀ (i : Instr) (s t u : State) (a v : Word),
    ((∃ sr off, i = .st sr off ∧ a = s.pc + 1#16 + signed off ∧ v = s.readReg sr) ∨
     (∃ sr base off, i = .str sr base off ∧ a = s.readReg base + signed off ∧ v = s.readReg sr) ∨
     (∃ sr off s1, i = .sti sr off ∧ Reads s (s.pc + 1#16 + signed off) a s1 ∧ v = s.readReg sr)) →
    a ∉ s.params.deviceAddrs → s.mem.wf = true → s.params.strictDecode = false → exec i s = .next t →
    u.mem = t.mem → u.params = t.params → u.run = .running → u.routine = none → u.pc = a →
    step u = exec (decode v) u

/-! ### TRAP -/

/-- R128, R153. TRAP with a vector outside the table: R7 and CC are written, then the fault is raised. -/
def Obligations.TrapWithUnrecognizedVectorFaults : Prop :=
  (∀ w : Word, w.extractLsb' 12 4 = 0xF#4 → decode w = .trap (w.extractLsb' 0 8)) ∧
  (∀ (v : BitVec 8) (s : State), v.toNat < 0x20 ∨ 0x25 < v.toNat →
    ∃ t, exec (.trap v) s = .next t ∧ TrapKeepsRegs s t ∧ t.run = .faulted ⟨.unrecognizedTrapVector v, s.pc⟩ ∧
      t.causeCode = 3 ∧ SamePorts s t)

/-- R122. GETC: the whole value readChar returns goes to R0, CC follows, nothing is written to the console; with no value
ready and no answer from the console the engine stays suspended in the routine, RUNNING, R7, CC and PC(next) written
(R32, R158). That readChar takes a value standing ready before it draws a free one is the model's choice
(notes/assumptions/5.md). -/
def Obligations.GetcPutsTheReadCharacterInR0 : Prop :=
  ∀ s : State,
    (∀ c rest, s.consoleIn = c :: rest → ∃ t, exec (.trap 0x20#8) s = .next t ∧ TrapWritesR0 s t c ∧ t.run = s.run ∧
      t.consoleIn = rest ∧ t.consoleOut = s.consoleOut ∧ t.draws = s.draws ∧ t.routine = s.routine) ∧
    (s.consoleIn = [] → match Config.consoleAnswer s.draws with
      | some c => ∃ t, exec (.trap 0x20#8) s = .next t ∧ TrapWritesR0 s t c ∧ t.run = s.run ∧ t.consoleIn = [] ∧
          t.consoleOut = s.consoleOut ∧ t.draws = s.draws + 1 ∧ t.routine = s.routine
      | none => ∃ t, exec (.trap 0x20#8) s = .next t ∧ TrapKeepsRegs s t ∧ t.run = s.run ∧ t.consoleIn = [] ∧
          t.consoleOut = s.consoleOut ∧ t.draws = s.draws + 1 ∧ t.routine = some .getc)

/-- R123. OUT: the full 16-bit R0 goes to writeChar. -/
def Obligations.OutWritesR0ToTheConsole : Prop :=
  ∀ s : State, ∃ t, exec (.trap 0x21#8) s = .next t ∧ TrapKeepsRegs s t ∧ t.run = s.run ∧
    t.consoleOut = s.consoleOut ++ [s.readReg 0#3] ∧ t.consoleIn = s.consoleIn ∧ t.draws = s.draws ∧
    t.routine = s.routine

/-- R124. PUTS: the words from R0 up to the first zero word go to the console; a device address with no device raises
UnimplementedDevice, and what was written stays written. `cs` is what the scan has read, fewer than 65536 words: after
a whole lap of the address space see PutsScanEndsFaultsOrGoesOn (the model's choice, notes/assumptions/7.md). -/
def Obligations.PutsWritesTheWordString : Prop :=
  ∀ (s s' : State) (cs : List Word), (∀ c ∈ cs, c ≠ 0x0000#16) → cs.length < 65536 →
    (ReadsAll s (s.readReg 0#3) (cs ++ [0x0000#16]) s' →
      ∃ t, exec (.trap 0x22#8) s = .next t ∧ TrapKeepsRegs s t ∧ t.run = s.run ∧
        t.consoleOut = s.consoleOut ++ cs ∧ t.consoleIn = s.consoleIn ∧ t.draws = s'.draws ∧
        t.routine = s.routine) ∧
    (ReadsAll s (s.readReg 0#3) cs s' → Denied s (s.readReg 0#3 + BitVec.ofNat 16 cs.length) →
      ∃ t, exec (.trap 0x22#8) s = .next t ∧ TrapKeepsRegs s t ∧
        t.run = .faulted ⟨.unimplementedDevice (s.readReg 0#3 + BitVec.ofNat 16 cs.length) .read (some 0xF#4), s.pc⟩ ∧
        t.consoleOut = s.consoleOut ++ cs ∧ t.consoleIn = s.consoleIn ∧ t.draws = s.draws ∧ t.routine = s.routine)

/-- R125. IN: the prompt, then the character's echo go to the console, and the character to R0, CC following.
While the console does not answer the engine stays suspended, the prompt written. readChar as for GETC (the model's choice, notes/assumptions/5.md). -/
def Obligations.InEchoesAndPutsTheCharacterInR0 : Prop :=
  ∀ s : State,
    (∀ c rest, s.consoleIn = c :: rest → ∃ t, exec (.trap 0x23#8) s = .next t ∧ TrapWritesR0 s t c ∧ t.run = s.run ∧
      t.consoleIn = rest ∧ t.consoleOut = s.consoleOut ++ s.params.inPrompt ++ [c] ∧ t.draws = s.draws ∧
      t.routine = s.routine) ∧
    (s.consoleIn = [] → match Config.consoleAnswer s.draws with
      | some c => ∃ t, exec (.trap 0x23#8) s = .next t ∧ TrapWritesR0 s t c ∧ t.run = s.run ∧ t.consoleIn = [] ∧
          t.consoleOut = s.consoleOut ++ s.params.inPrompt ++ [c] ∧ t.draws = s.draws + 1 ∧ t.routine = s.routine
      | none => ∃ t, exec (.trap 0x23#8) s = .next t ∧ TrapKeepsRegs s t ∧ t.run = s.run ∧ t.consoleIn = [] ∧
          t.consoleOut = s.consoleOut ++ s.params.inPrompt ∧ t.draws = s.draws + 1 ∧ t.routine = some .inEcho)

/-- R126. PUTSP: two characters a word, low byte first, up to the first zero byte; the faulting scan as for PUTS. `ws` are
the words both of whose bytes are characters, `z` the word that holds the terminator; the
lap as for PUTS (the model's choice, notes/assumptions/7.md). -/
def Obligations.PutspWritesThePackedString : Prop :=
  ∀ (s s' : State) (ws : List Word) (z : Word), (∀ w ∈ ws, w.toNat % 256 ≠ 0 ∧ w.toNat / 256 ≠ 0) → ws.length < 65536 →
    (ReadsAll s (s.readReg 0#3) (ws ++ [z]) s' → (z.toNat % 256 = 0 ∨ z.toNat / 256 = 0) →
      ∃ t, exec (.trap 0x24#8) s = .next t ∧ TrapKeepsRegs s t ∧ t.run = s.run ∧ t.consoleIn = s.consoleIn ∧
        t.draws = s'.draws ∧ t.routine = s.routine ∧ t.consoleOut = s.consoleOut ++ ws.flatMap packedBytes ++
          (if z.toNat % 256 = 0 then [] else [BitVec.ofNat 16 (z.toNat % 256)])) ∧
    (ReadsAll s (s.readReg 0#3) ws s' → Denied s (s.readReg 0#3 + BitVec.ofNat 16 ws.length) →
      ∃ t, exec (.trap 0x24#8) s = .next t ∧ TrapKeepsRegs s t ∧
        t.run = .faulted ⟨.unimplementedDevice (s.readReg 0#3 + BitVec.ofNat 16 ws.length) .read (some 0xF#4), s.pc⟩ ∧
        t.consoleOut = s.consoleOut ++ ws.flatMap packedBytes ∧ t.consoleIn = s.consoleIn ∧ t.draws = s.draws ∧
        t.routine = s.routine)

/-- R127. HALT: the message, then HALTED; PC and R7 at PC(next); a normal exit and no fault. -/
def Obligations.HaltEntersHaltedWithoutFault : Prop :=
  ∀ s : State, ∃ t, exec (.trap 0x25#8) s = .next t ∧ TrapKeepsRegs s t ∧ t.run = .halted ∧ t.faultRecord = none ∧
    t.exitCode = some 0 ∧ t.consoleOut = s.consoleOut ++ s.params.haltMessage ∧ t.consoleIn = s.consoleIn ∧
    t.draws = s.draws ∧ t.routine = s.routine

/-- R129. Whatever the vector: no routine writes PC, no register but R7 and (GETC, IN) R0 changes, and no memory cell; a
routine other than HALT that raises nothing leaves the run state alone. -/
def Obligations.TrapRoutinesChangeOnlyR7AndR0 : Prop :=
  ∀ (v : BitVec 8) (s t : State), exec (.trap v) s = .next t →
    TrapEntered s t ∧ SameRegsBut s t [0#3, 7#3] ∧
    (v ≠ 0x20#8 → v ≠ 0x23#8 → t.readReg 0#3 = s.readReg 0#3) ∧
    (t.run = s.run ∨ (v = 0x25#8 ∧ t.run = .halted) ∨ ∃ r, t.run = .faulted r)

/-- R124 with R32. Whatever memory and the device hold, PUTS's loop ends, raises UnimplementedDevice, or goes on: after a
whole lap of the address space the engine stays suspended in it, and the next step goes on from there (the model's
choice, notes/assumptions/7.md). -/
def Obligations.PutsScanEndsFaultsOrGoesOn : Prop :=
  (∀ s : State, ∃ t, exec (.trap 0x22#8) s = .next t ∧ TrapKeepsRegs s t ∧ t.consoleIn = s.consoleIn ∧
    PutsScanned s.pc (s.readReg 0#3) s t) ∧
  (∀ (a : Word) (s : State), s.run = .running → s.routine = some (.puts a) → ∃ t, step s = .next t ∧ ScanKeeps s t ∧
    PutsScanned (s.pc - 1#16) a { s with routine := none } t)

/-- R126 with R32. The same of PUTSP's loop (the model's choice, notes/assumptions/7.md). -/
def Obligations.PutspScanEndsFaultsOrGoesOn : Prop :=
  (∀ s : State, ∃ t, exec (.trap 0x24#8) s = .next t ∧ TrapKeepsRegs s t ∧ t.consoleIn = s.consoleIn ∧
    PutspScanned s.pc (s.readReg 0#3) s t) ∧
  (∀ (a : Word) (s : State), s.run = .running → s.routine = some (.putsp a) → ∃ t, step s = .next t ∧ ScanKeeps s t ∧
    PutspScanned (s.pc - 1#16) a { s with routine := none } t)

/-- R32, R122, R125, R158. The engine suspended in readChar: while the console does not answer, only the count of draws
changes; when it does, IN's echo goes out, R0 and CC take the character, and the TRAP step is complete. That each step
asks the console once is the model's choice (notes/assumptions/5.md and 17.md). -/
def Obligations.SuspendedReadCharGoesOn : Prop :=
  ∀ s : State, s.run = .running →
    (s.routine = some .getc →
      (∀ c rest, s.consoleIn = c :: rest → ∃ t, step s = .next t ∧ CharArrives s t c ∧ t.consoleIn = rest ∧
        t.consoleOut = s.consoleOut ∧ t.draws = s.draws) ∧
      (s.consoleIn = [] → match Config.consoleAnswer s.draws with
        | some c => ∃ t, step s = .next t ∧ CharArrives s t c ∧ t.consoleIn = [] ∧ t.consoleOut = s.consoleOut ∧
            t.draws = s.draws + 1
        | none => step s = .next { s with draws := s.draws + 1 })) ∧
    (s.routine = some .inEcho →
      (∀ c rest, s.consoleIn = c :: rest → ∃ t, step s = .next t ∧ CharArrives s t c ∧ t.consoleIn = rest ∧
        t.consoleOut = s.consoleOut ++ [c] ∧ t.draws = s.draws) ∧
      (s.consoleIn = [] → match Config.consoleAnswer s.draws with
        | some c => ∃ t, step s = .next t ∧ CharArrives s t c ∧ t.consoleIn = [] ∧
            t.consoleOut = s.consoleOut ++ [c] ∧ t.draws = s.draws + 1
        | none => step s = .next { s with draws := s.draws + 1 }))

/-- R32 with D30. A host sees the engine at every point but inside a scan, and inside a step only in the wait of readChar;
what it sees is the state R32 lists. From one such point to the next the engine goes one way, and with no device attached
each step of the model gets to one: it ends inside no scan. -/
def Obligations.HostSeesNoPointInsideAStepButTheWait : Prop :=
  (∀ s : State, (s.hostView = none ↔ ∃ a, s.routine = some (.puts a) ∨ s.routine = some (.putsp a)) ∧
    ∀ v, s.hostView = some v → v.regs = s.regs ∧ v.pc = s.pc ∧ v.cc = s.cc ∧ v.mem = s.mem ∧ v.run = s.run ∧
      v.consoleOut = s.consoleOut ∧ v.deviceOut = s.deviceOut ∧
      (v.waiting = true ↔ (s.routine = some .getc ∨ s.routine = some .inEcho)) ∧
      (v.waiting = false ↔ s.routine = none)) ∧
  (∀ s t : State, HostStep s t → t.hostView ≠ none) ∧
  (∀ s t t' : State, HostStep s t → HostStep s t' → t' = t) ∧
  (∀ s : State, s.run = .running → s.params.deviceAttached = false → s.params.strictDecode = false →
    ∃ t, step s = .next t ∧ HostStep s t)

/-- R124, R126 and R32. A string of any length, longer than the address space too, is written in one step as a host sees
it: from the TRAP's fetch to the next point it can see, where the TRAP is complete. The device's draws decide where such
a string ends. -/
def Obligations.StringsOfAnyLengthAreOneHostStep : Prop :=
  (∀ (s s1 s' : State) (w : Word) (cs : List Word), s.run = .running → s.routine = none → Reads s s.pc w s1 →
    wordWellFormed s.params.strictDecode w = true → decode w = .trap 0x22#8 → (∀ c ∈ cs, c ≠ 0x0000#16) →
    ReadsAll s1 (s.readReg 0#3) (cs ++ [0x0000#16]) s' →
    ∃ t, HostStep s t ∧ TrapKeepsRegs s t ∧ t.run = .running ∧ t.routine = none ∧ t.consoleOut = s.consoleOut ++ cs ∧
      t.consoleIn = s.consoleIn ∧ t.draws = s'.draws) ∧
  (∀ (s s1 s' : State) (w : Word) (ws : List Word) (z : Word), s.run = .running → s.routine = none →
    Reads s s.pc w s1 → wordWellFormed s.params.strictDecode w = true → decode w = .trap 0x24#8 →
    (∀ x ∈ ws, x.toNat % 256 ≠ 0 ∧ x.toNat / 256 ≠ 0) → (z.toNat % 256 = 0 ∨ z.toNat / 256 = 0) →
    ReadsAll s1 (s.readReg 0#3) (ws ++ [z]) s' →
    ∃ t, HostStep s t ∧ TrapKeepsRegs s t ∧ t.run = .running ∧ t.routine = none ∧
      t.consoleOut = s.consoleOut ++ ws.flatMap packedBytes ++
        (if z.toNat % 256 = 0 then [] else [BitVec.ofNat 16 (z.toNat % 256)]) ∧
      t.consoleIn = s.consoleIn ∧ t.draws = s'.draws)

/-! ### RTI and RES -/

/-- R140. RTI raises UnimplementedOpcode with the opcode and fetch_pc; only PC and the run state change. -/
def Obligations.RtiRaisesUnimplementedOpcode : Prop :=
  (∀ w : Word, w.extractLsb' 12 4 = 0x8#4 → decode w = .rti) ∧
  (∀ s : State, ∃ t, exec .rti s = .next t ∧ t.run = .faulted ⟨.unimplementedOpcode 0x8#4, s.pc⟩ ∧ t.causeCode = 1 ∧
    t.pc = s.pc + 1#16 ∧ SameRegsBut s t [] ∧ t.cc = s.cc ∧ SameMemory s t ∧ SamePorts s t)

/-- R141. RES likewise. -/
def Obligations.ResRaisesUnimplementedOpcode : Prop :=
  (∀ w : Word, w.extractLsb' 12 4 = 0xD#4 → decode w = .res) ∧
  (∀ s : State, ∃ t, exec .res s = .next t ∧ t.run = .faulted ⟨.unimplementedOpcode 0xD#4, s.pc⟩ ∧ t.causeCode = 1 ∧
    t.pc = s.pc + 1#16 ∧ SameRegsBut s t [] ∧ t.cc = s.cc ∧ SameMemory s t ∧ SamePorts s t)

/-! ### Reset and load -/

/-- R170, R171. The start of a session: with a LoadError nothing runs; else registers zero, PC = 0x3000 whatever the
origin, CC = CC_RESET, memory as loaded over MEM_INIT, no fault record, RUNNING. -/
def Obligations.SessionStartsInTheResetState : Prop :=
  ∀ (p : Params) (memInit : Memory) (image : List Byte), match loadImage image memInit with
    | .error e => State.boot p memInit image = .error e
    | .ok m => ∃ s, State.boot p memInit image = .ok s ∧ (∀ r, s.readReg r = 0x0000#16) ∧ s.pc = 0x3000#16 ∧
        s.cc = p.ccReset ∧ s.mem = m ∧ s.run = .running ∧ s.faultRecord = none ∧ s.routine = none ∧
        s.params = p

/-- The model's State.reset is the start of a session with the defaults of R6, every cell zero (the reference MEM_INIT,
the model's choice, notes/assumptions/2.md) and an image that holds no word (notes/assumptions/10.md). -/
def Obligations.ResetIsTheDefaultSessionWithoutAProgram : Prop :=
  State.boot Params.default [] [0x00#8, 0x30#8] = .ok State.reset ∧ (∀ r, State.reset.readReg r = 0x0000#16) ∧
  State.reset.pc = 0x3000#16 ∧ State.reset.cc = 0b000#3 ∧ (∀ a, State.reset.mem.read a = 0x0000#16) ∧
  State.reset.run = .running ∧ State.reset.causeCode = 0 ∧ State.reset.routine = none

/-- R173. loadImage: LoadError for a truncated image and for one that does not fit; else the little-endian words stand at
the origin and after it, and every other cell is as it was. The checks for odd length and for fit are the spec's own
choice (92_eei_decisions.md D11), and which LoadError is given is the model's (notes/assumptions/15.md). -/
def Obligations.LoadImagePlacesLittleEndianWords : Prop :=
  (∀ (image : List Byte) (m : Memory), image.length < 2 ∨ image.length % 2 = 1 →
    loadImage image m = .error .truncated) ∧
  (∀ (lo hi : Byte) (rest : List Byte) (m : Memory), rest.length % 2 = 0 →
    lo.toNat + 256 * hi.toNat + rest.length / 2 > 65536 → loadImage (lo :: hi :: rest) m = .error .doesNotFit) ∧
  (∀ (lo hi : Byte) (rest : List Byte) (m : Memory), rest.length % 2 = 0 →
    lo.toNat + 256 * hi.toNat + rest.length / 2 ≤ 65536 → m.wf = true →
    ∃ m', loadImage (lo :: hi :: rest) m = .ok m' ∧ m'.wf = true ∧
      (∀ (k : Nat) (b0 b1 : Byte), rest[2 * k]? = some b0 → rest[2 * k + 1]? = some b1 →
        (m'.read (BitVec.ofNat 16 (lo.toNat + 256 * hi.toNat + k))).toNat = b0.toNat + 256 * b1.toNat) ∧
      (∀ a : Word, a.toNat < lo.toNat + 256 * hi.toNat ∨ lo.toNat + 256 * hi.toNat + rest.length / 2 ≤ a.toNat →
        m'.read a = m.read a))

/-! ### Encoding -/

/-- R70, R71. The decoder is total and selects exactly one of the 19 shapes: each row's mask and match of
spec/opcode_table.json hold of a word exactly when the decoder gives that row's instruction. -/
def Obligations.DecoderSelectsTheTableRow : Prop :=
  ∀ w : Word,
    (w &&& 0xF000#16 = 0x0000#16 ↔ ∃ a b, decode w = .br a b) ∧
    (w &&& 0xF020#16 = 0x1000#16 ↔ ∃ a b c, decode w = .addReg a b c) ∧
    (w &&& 0xF020#16 = 0x1020#16 ↔ ∃ a b c, decode w = .addImm a b c) ∧
    (w &&& 0xF000#16 = 0x2000#16 ↔ ∃ a b, decode w = .ld a b) ∧
    (w &&& 0xF000#16 = 0x3000#16 ↔ ∃ a b, decode w = .st a b) ∧
    (w &&& 0xF800#16 = 0x4800#16 ↔ ∃ a, decode w = .jsr a) ∧
    (w &&& 0xF800#16 = 0x4000#16 ↔ ∃ a, decode w = .jsrr a) ∧
    (w &&& 0xF020#16 = 0x5000#16 ↔ ∃ a b c, decode w = .andReg a b c) ∧
    (w &&& 0xF020#16 = 0x5020#16 ↔ ∃ a b c, decode w = .andImm a b c) ∧
    (w &&& 0xF000#16 = 0x6000#16 ↔ ∃ a b c, decode w = .ldr a b c) ∧
    (w &&& 0xF000#16 = 0x7000#16 ↔ ∃ a b c, decode w = .str a b c) ∧
    (w &&& 0xF000#16 = 0x8000#16 ↔ decode w = .rti) ∧
    (w &&& 0xF000#16 = 0x9000#16 ↔ ∃ a b, decode w = .notReg a b) ∧
    (w &&& 0xF000#16 = 0xA000#16 ↔ ∃ a b, decode w = .ldi a b) ∧
    (w &&& 0xF000#16 = 0xB000#16 ↔ ∃ a b, decode w = .sti a b) ∧
    (w &&& 0xF000#16 = 0xC000#16 ↔ ∃ a, decode w = .jmp a) ∧
    (w &&& 0xF000#16 = 0xD000#16 ↔ decode w = .res) ∧
    (w &&& 0xF000#16 = 0xE000#16 ↔ ∃ a b, decode w = .lea a b) ∧
    (w &&& 0xF000#16 = 0xF000#16 ↔ ∃ a, decode w = .trap a)

/-- R61 to R63. Decoding an encoded instruction gives it back, every operand at every value. -/
def Obligations.DecodeOfEncodeIsTheInstruction : Prop := ∀ i : Instr, decode (encode i) = i

/-- R61, R65. The words STRICT_DECODE accepts are exactly those the encoder writes. That RES has zeros there is the model's
choice (notes/assumptions/9.md). -/
def Obligations.AssembledWordsAreTheEncodersWords : Prop := ∀ w : Word, assembledWord w = true ↔ encode (decode w) = w

/-- R65. A word whose unread bits differ executes as the word with the assembler's values there; with STRICT_DECODE = true
such a word is refused (no step); with STRICT_DECODE = false no word is refused. That RES has zeros there is the
model's choice (notes/assumptions/9.md). -/
def Obligations.UnreadBitsAreIgnoredOrRefused : Prop :=
  (∀ w w' : Word, w &&& ~~~ unreadMask w = w' &&& ~~~ unreadMask w → decode w' = decode w) ∧
  (∀ (s s' : State) (w : Word), s.run = .running → s.routine = none →
    s.params.strictDecode = true → Reads s s.pc w s' →
    (assembledWord w = false → step s = .refused (.strictDecode w)) ∧
    (assembledWord w = true → step s = exec (decode w) s')) ∧
  (∀ (s : State) (r : Refusal), s.params.strictDecode = false → step s ≠ .refused r)

/-- R61, R62, R70, R90 to R106. Words of spec/95_test_vectors.md, written out there from the formats, decode to the
instructions they stand for. -/
def Obligations.VectorWordsDecode : Prop :=
  decode 0x05FB#16 = .br 0b010#3 (BitVec.ofInt 9 (-5)) ∧ decode 0x123D#16 = .addImm 1#3 0#3 (BitVec.ofInt 5 (-3)) ∧
  decode 0x5483#16 = .andReg 2#3 2#3 3#3 ∧ decode 0x4802#16 = .jsr 2#11 ∧ decode 0x4080#16 = .jsrr 2#3 ∧
  decode 0x607F#16 = .ldr 0#3 1#3 (BitVec.ofInt 6 (-1)) ∧ decode 0xB601#16 = .sti 3#3 1#9 ∧
  decode 0xC1C0#16 = .jmp 7#3 ∧ decode 0xF025#16 = .trap 0x25#8 ∧ decode 0x8FFF#16 = .rti

/-- R74, which the spec derives from R90. Every word 0x0000..0x01FF only advances PC. -/
def Obligations.WordsWithoutFlagsAreNoOps : Prop :=
  ∀ (w : Word) (s : State), w.toNat < 0x200 → exec (decode w) s = .next { s with pc := s.pc + 1#16 }

/-- R7, R8. Field extraction masks to the requested width whatever the magnitude; sign extension keeps the field's bits,
repeats its top bit above them and keeps its signed value; zero extension clears the bits above. -/
def Obligations.FieldsAreMaskedAndExtended : Prop :=
  (∀ (w : Word) (lo n : Nat), (field w lo n).toNat = w.toNat / 2 ^ lo % 2 ^ n) ∧
  (∀ (n : Nat) (f : BitVec n), 0 < n → n ≤ 16 →
    (∀ k, k < 16 → (sext16 f).getLsbD k = if k < n then f.getLsbD k else f.getLsbD (n - 1)) ∧
    (sext16 f).toInt = f.toInt ∧ (zext16 f).toNat = f.toNat)

/-! ### The step and the run state -/

/-- R31. One step in RUNNING, between two instructions: the fetch through MemRead, then the decoded instruction's handler, which advances PC first;
a fetch that faults keeps PC and changes nothing but the run state. That exec begins with the PC increment is deduced
(notes/assumptions/13.md). -/
def Obligations.StepRunsTheDecodedInstruction : Prop :=
  ∀ s : State, s.run = .running → s.routine = none →
    (∀ w s', Reads s s.pc w s' → wordWellFormed s.params.strictDecode w = true → step s = exec (decode w) s') ∧
    (Denied s s.pc → step s = .next { s with run := .faulted ⟨.unimplementedDevice s.pc .fetch none, s.pc⟩ })

/-- The host's placing of a word is a fetch of that word: in RUNNING, at a plain PC, without STRICT_DECODE. -/
def Obligations.PlacedWordIsTheNextInstruction : Prop :=
  ∀ (s : State) (w : Nat), s.run = .running → s.pc ∉ s.params.deviceAddrs → s.params.strictDecode = false →
    s.mem.wf = true → w < 65536 → ∃ i, decodeTableWord 16 w = some i ∧
      step (s.withFetchWord 16 w) = exec i (s.withFetchWord 16 w)

/-- R30, R152, R166. HALTED and FAULTED are terminal: no step is enabled. That the step answers there with a fault of the
model is its choice (notes/assumptions/12.md). -/
def Obligations.NoStepInHaltedOrFaulted : Prop :=
  ∀ s : State, (s.run = .halted → step s = .fault .halted) ∧
    (∀ r, s.run = .faulted r → step s = .fault (.faulted r)) ∧ (∀ t, step s = .next t → s.run = .running)

/-- R30, R127. "HALTED is entered only by the halt trap": a step that ends in HALTED fetched TRAP x25. -/
def Obligations.HaltedIsEnteredOnlyByTheHaltTrap : Prop :=
  ∀ s t : State, step s = .next t → t.run = .halted →
    s.routine = none ∧ ∃ w s', Reads s s.pc w s' ∧ decode w = .trap 0x25#8

/-- R150, R151, R153, R155. A step that ends in FAULTED has one of the three causes: RTI or RES with its opcode; a device
address with no device attached, on the fetch or in an instruction that reaches memory, with its opcode; TRAP with a
vector outside the table. The record's pc is fetch_pc, and the cause code is the cause's. A scan the engine was suspended
in faults as its TRAP does. -/
def Obligations.FaultedHasOneOfTheThreeCauses : Prop :=
  ∀ (s t : State) (c : FaultCause) (pc : Word), step s = .next t → t.run = .faulted ⟨c, pc⟩ →
    (s.routine = none ∧ pc = s.pc ∧
      ((c = .unimplementedDevice s.pc .fetch none ∧ Denied s s.pc ∧ t.pc = s.pc ∧ t.causeCode = 2) ∨
       (t.pc = s.pc + 1#16 ∧ ∃ w s', Reads s s.pc w s' ∧
        ((c = .unimplementedOpcode 0x8#4 ∧ decode w = .rti ∧ t.causeCode = 1) ∨
         (c = .unimplementedOpcode 0xD#4 ∧ decode w = .res ∧ t.causeCode = 1) ∨
         (∃ v : BitVec 8, c = .unrecognizedTrapVector v ∧ decode w = .trap v ∧ (v.toNat < 0x20 ∨ 0x25 < v.toNat) ∧
            t.causeCode = 3) ∨
         (∃ a access op, c = .unimplementedDevice a access (some op) ∧ Denied s a ∧ op = w.extractLsb' 12 4 ∧
            t.causeCode = 2 ∧
            ((access = .read ∧ (op = 0x2#4 ∨ op = 0xA#4 ∨ op = 0x6#4 ∨ op = 0xB#4)) ∨
             (access = .read ∧ (decode w = .trap 0x22#8 ∨ decode w = .trap 0x24#8)) ∨
             (access = .write ∧ (op = 0x3#4 ∨ op = 0xB#4 ∨ op = 0x7#4)))))))) ∨
    (pc = s.pc - 1#16 ∧ t.pc = s.pc ∧ t.causeCode = 2 ∧
      ∃ a b, (s.routine = some (.puts b) ∨ s.routine = some (.putsp b)) ∧ Denied s a ∧
        c = .unimplementedDevice a .read (some 0xF#4))

/-- Every step keeps the invariant: memory in its canonical form, CC no flag or exactly one (R26), and a suspended trap
routine as its TRAP left it: RUNNING, R7 and CC from PC(next), a scan only with a device attached (R120, R124, R158). -/
def Obligations.EveryStepKeepsTheInvariant : Prop := ∀ s t : State, s.Inv → step s = .next t → t.Inv

/-- The invariant holds at reset, and at the start of every session whose parameters and initial memory are legal. -/
def Obligations.SessionStartMeetsTheInvariant : Prop :=
  State.reset.Inv ∧ ∀ (p : Params) (memInit : Memory) (image : List Byte) (s : State), p.wf = true → memInit.wf = true →
    State.boot p memInit image = .ok s → s.Inv

/-- R24, R27. WriteReg is the only way an instruction writes a register: a step that changes a register or CC leaves CC as
SetCC of that register's value, and changes no other register; but TRAP's GETC and IN write R7 and then R0, and CC is
R0's. -/
def Obligations.CcFollowsEveryRegisterWrite : Prop :=
  ∀ s t : State, step s = .next t →
    (t.cc = s.cc ∧ SameRegsBut s t []) ∨ (∃ r, CcShows (t.readReg r) t.cc ∧ SameRegsBut s t [r]) ∨
    (CcShows (t.readReg 0#3) t.cc ∧ t.readReg 7#3 = s.pc + 1#16 ∧ SameRegsBut s t [0#3, 7#3] ∧ s.routine = none ∧
      ∃ w s', Reads s s.pc w s' ∧ (decode w = .trap 0x20#8 ∨ decode w = .trap 0x23#8))

/-- R25. SetCC: after it exactly one of isNegative, isZero, isPositive holds, each as the rule says. -/
def Obligations.SetCcLeavesExactlyOneFlag : Prop :=
  ∀ (s : State) (r : RegIdx) (v : Word),
    (((s.writeReg r v).cc = 0b010#3 ↔ v.toNat = 0) ∧ ((s.writeReg r v).cc = 0b100#3 ↔ v.toInt < 0) ∧
     ((s.writeReg r v).cc = 0b001#3 ↔ 0 < v.toInt)) ∧
    (s.writeReg r v).readReg r = v ∧ SameRegsBut s (s.writeReg r v) [r]

/-- R27. "Read by: BR only": what any other instruction does is the same whatever CC holds, but for CC itself where the
instruction writes none. -/
def Obligations.CcIsReadByBrOnly : Prop :=
  ∀ (i : Instr) (s : State) (cc : BitVec 3), (∀ nzp off, i ≠ .br nzp off) →
    match exec i s, exec i { s with cc := cc } with
    | .next t, .next t' => { t with cc := t'.cc } = t' ∧ (t'.cc = t.cc ∨ (t.cc = s.cc ∧ t'.cc = cc))
    | .fault f, .fault f' => f = f'
    | .refused r, .refused r' => r = r'
    | _, _ => False

/-- R27. "Not written by: BR, JMP, ST, STI, STR, ... RTI and RES": they leave CC and every general register alone. -/
def Obligations.CcIsNotWrittenByBranchesStoresAndFaults : Prop :=
  ∀ (i : Instr) (s t : State),
    ((∃ nzp off, i = .br nzp off) ∨ (∃ base, i = .jmp base) ∨ (∃ sr off, i = .st sr off) ∨ (∃ sr off, i = .sti sr off) ∨
      (∃ sr base off, i = .str sr base off) ∨ i = .rti ∨ i = .res) →
    exec i s = .next t → t.cc = s.cc ∧ SameRegsBut s t []

/-- R51. Only ST, STI and STR write memory: every other instruction, TRAP's routines among them, leaves every cell. -/
def Obligations.OnlyStoresChangeMemory : Prop :=
  ∀ (i : Instr) (s t : State),
    (∀ sr off, i ≠ .st sr off) → (∀ sr off, i ≠ .sti sr off) → (∀ sr base off, i ≠ .str sr base off) →
    exec i s = .next t → SameMemory s t ∧ t.deviceOut = s.deviceOut

/-- R22, R23. PC after a step: PC(next) modulo 65536 but for BR, JMP, JSR and JSRR, fetch_pc where the fetch faulted, and
PC(next) already where the engine was suspended in a trap routine (R129). -/
def Obligations.PcAdvancesUnlessControlTransfers : Prop :=
  ∀ s t : State, step s = .next t → (s.routine ≠ none ∧ t.pc = s.pc) ∨ (s.routine = none ∧
    ((t.pc.toNat = (s.pc.toNat + 1) % 65536) ∨ (t.pc = s.pc ∧ Denied s s.pc) ∨
     (∃ w s', Reads s s.pc w s' ∧ ((∃ a b, decode w = .br a b) ∨ (∃ a, decode w = .jmp a) ∨
       (∃ a, decode w = .jsr a) ∨ ∃ a, decode w = .jsrr a))))

/-- R14, R47 and R6. What went out at a port stays out, in order; a ready input is taken oldest first; no step writes a
parameter. The lists are the model's choice (notes/assumptions/3.md, 5.md and 8.md). -/
def Obligations.PortsOnlyGrowAndParametersStand : Prop :=
  ∀ s t : State, step s = .next t →
    (∃ out, t.consoleOut = s.consoleOut ++ out) ∧ (∃ out, t.deviceOut = s.deviceOut ++ out) ∧
    (t.consoleIn = s.consoleIn ∨ ∃ c, s.consoleIn = c :: t.consoleIn) ∧ s.draws ≤ t.draws ∧ t.params = s.params

/-- Totality, over R31, R65, R71, R124 and R158. Every instruction answers a next state from every state; so does every
step in RUNNING without STRICT_DECODE; and a step answers a fault of the model only where no step is enabled (R30). A
next state in FAULTED counts: the spec's faults are run states (R152, notes/assumptions/12.md). So does one suspended in
a trap routine (notes/assumptions/17.md). -/
def Obligations.NoInstructionStops : Prop :=
  (∀ (i : Instr) (s : State), ∃ t, exec i s = .next t) ∧
  (∀ s : State, s.run = .running → s.params.strictDecode = false → ∃ t, step s = .next t) ∧
  (∀ (s : State) (f : Fault), step s = .fault f → s.run ≠ .running)

/-- Progress, over R31, R65, R71, R121, R124 and R158. With no device attached and a value ready at the console, every
instruction and every step in RUNNING completes what it began: the engine is suspended in no routine it was not in
before (exec) or in none (step), since a scan that meets no terminator reaches KBSR_ADDR and faults (R124). A next state
in FAULTED counts as completing (R152, notes/assumptions/12.md). -/
def Obligations.EveryInstructionCompletesWithoutADevice : Prop :=
  (∀ (i : Instr) (s : State), s.params.deviceAttached = false →
    (s.consoleIn ≠ [] ∨ (i ≠ .trap 0x20#8 ∧ i ≠ .trap 0x23#8)) →
    ∃ t, exec i s = .next t ∧ t.routine = s.routine) ∧
  (∀ s : State, s.run = .running → s.params.deviceAttached = false → s.params.strictDecode = false → s.consoleIn ≠ [] →
    ∃ t, step s = .next t ∧ t.routine = none)

/-- R13, R167 and D24. A run has ended in HALTED, exit code 0, or in FAULTED, a non-zero exit code; else it has not. -/
def Obligations.ExitCodeTellsHaltFromFault : Prop :=
  ∀ s : State, s.params.wf = true →
    (s.exitCode = some 0 ↔ s.run = .halted) ∧ (s.exitCode = none ↔ s.run = .running) ∧
    ((∃ n, n ≠ 0 ∧ s.exitCode = some n) ↔ ∃ r, s.faultRecord = some r)

/-- R54, R106. "a subsequent STR/LDR through R1 must read back the same value written": through the same base and offset,
at a plain address. DR may be any register. -/
def Obligations.LdrReadsBackWhatStrStored : Prop :=
  ∀ (sr base dr : RegIdx) (off : BitVec 6) (s : State), s.readReg base + signed off ∉ s.params.deviceAddrs →
    s.mem.wf = true → ∃ t u, exec (.str sr base off) s = .next t ∧ exec (.ldr dr base off) t = .next u ∧
      WritesReg t u dr (s.readReg sr)
end

