-- ==== Sys2Proof/Laws/State.lean ====
section
/-! SUPPORT. What each named update does to each field of State: one lemma per field per update, so that no later proof
unfolds a record update. -/

namespace Sys2Proof.Machine

variable (s : State)

@[simp] theorem State.writeReg_regs (r : RegIdx) (v : Word) :
    (s.writeReg r v).regs = s.regs.set r.toNat v r.isLt := rfl
@[simp] theorem State.writeReg_pc (r : RegIdx) (v : Word) :
    (s.writeReg r v).pc = s.pc := rfl
@[simp] theorem State.writeReg_cc (r : RegIdx) (v : Word) :
    (s.writeReg r v).cc = ccOf v := rfl
@[simp] theorem State.writeReg_mem (r : RegIdx) (v : Word) :
    (s.writeReg r v).mem = s.mem := rfl
@[simp] theorem State.writeReg_run (r : RegIdx) (v : Word) :
    (s.writeReg r v).run = s.run := rfl
@[simp] theorem State.writeReg_routine (r : RegIdx) (v : Word) :
    (s.writeReg r v).routine = s.routine := rfl
@[simp] theorem State.writeReg_consoleIn (r : RegIdx) (v : Word) :
    (s.writeReg r v).consoleIn = s.consoleIn := rfl
@[simp] theorem State.writeReg_consoleOut (r : RegIdx) (v : Word) :
    (s.writeReg r v).consoleOut = s.consoleOut := rfl
@[simp] theorem State.writeReg_deviceOut (r : RegIdx) (v : Word) :
    (s.writeReg r v).deviceOut = s.deviceOut := rfl
@[simp] theorem State.writeReg_draws (r : RegIdx) (v : Word) :
    (s.writeReg r v).draws = s.draws := rfl
@[simp] theorem State.writeReg_params (r : RegIdx) (v : Word) :
    (s.writeReg r v).params = s.params := rfl

@[simp] theorem State.setPc_regs (target : Word) :
    (s.setPc target).regs = s.regs := rfl
@[simp] theorem State.setPc_pc (target : Word) :
    (s.setPc target).pc = target := rfl
@[simp] theorem State.setPc_cc (target : Word) :
    (s.setPc target).cc = s.cc := rfl
@[simp] theorem State.setPc_mem (target : Word) :
    (s.setPc target).mem = s.mem := rfl
@[simp] theorem State.setPc_run (target : Word) :
    (s.setPc target).run = s.run := rfl
@[simp] theorem State.setPc_routine (target : Word) :
    (s.setPc target).routine = s.routine := rfl
@[simp] theorem State.setPc_consoleIn (target : Word) :
    (s.setPc target).consoleIn = s.consoleIn := rfl
@[simp] theorem State.setPc_consoleOut (target : Word) :
    (s.setPc target).consoleOut = s.consoleOut := rfl
@[simp] theorem State.setPc_deviceOut (target : Word) :
    (s.setPc target).deviceOut = s.deviceOut := rfl
@[simp] theorem State.setPc_draws (target : Word) :
    (s.setPc target).draws = s.draws := rfl
@[simp] theorem State.setPc_params (target : Word) :
    (s.setPc target).params = s.params := rfl

@[simp] theorem State.advancePc_regs :
    s.advancePc.regs = s.regs := rfl
@[simp] theorem State.advancePc_pc :
    s.advancePc.pc = s.pc + 1#16 := rfl
@[simp] theorem State.advancePc_cc :
    s.advancePc.cc = s.cc := rfl
@[simp] theorem State.advancePc_mem :
    s.advancePc.mem = s.mem := rfl
@[simp] theorem State.advancePc_run :
    s.advancePc.run = s.run := rfl
@[simp] theorem State.advancePc_routine :
    s.advancePc.routine = s.routine := rfl
@[simp] theorem State.advancePc_consoleIn :
    s.advancePc.consoleIn = s.consoleIn := rfl
@[simp] theorem State.advancePc_consoleOut :
    s.advancePc.consoleOut = s.consoleOut := rfl
@[simp] theorem State.advancePc_deviceOut :
    s.advancePc.deviceOut = s.deviceOut := rfl
@[simp] theorem State.advancePc_draws :
    s.advancePc.draws = s.draws := rfl
@[simp] theorem State.advancePc_params :
    s.advancePc.params = s.params := rfl

@[simp] theorem State.raise_regs (c : FaultCause) (f : Word) :
    (s.raise c f).regs = s.regs := rfl
@[simp] theorem State.raise_pc (c : FaultCause) (f : Word) :
    (s.raise c f).pc = s.pc := rfl
@[simp] theorem State.raise_cc (c : FaultCause) (f : Word) :
    (s.raise c f).cc = s.cc := rfl
@[simp] theorem State.raise_mem (c : FaultCause) (f : Word) :
    (s.raise c f).mem = s.mem := rfl
@[simp] theorem State.raise_run (c : FaultCause) (f : Word) :
    (s.raise c f).run = .faulted ⟨c, f⟩ := rfl
@[simp] theorem State.raise_routine (c : FaultCause) (f : Word) :
    (s.raise c f).routine = s.routine := rfl
@[simp] theorem State.raise_consoleIn (c : FaultCause) (f : Word) :
    (s.raise c f).consoleIn = s.consoleIn := rfl
@[simp] theorem State.raise_consoleOut (c : FaultCause) (f : Word) :
    (s.raise c f).consoleOut = s.consoleOut := rfl
@[simp] theorem State.raise_deviceOut (c : FaultCause) (f : Word) :
    (s.raise c f).deviceOut = s.deviceOut := rfl
@[simp] theorem State.raise_draws (c : FaultCause) (f : Word) :
    (s.raise c f).draws = s.draws := rfl
@[simp] theorem State.raise_params (c : FaultCause) (f : Word) :
    (s.raise c f).params = s.params := rfl

@[simp] theorem State.halt_regs :
    s.halt.regs = s.regs := rfl
@[simp] theorem State.halt_pc :
    s.halt.pc = s.pc := rfl
@[simp] theorem State.halt_cc :
    s.halt.cc = s.cc := rfl
@[simp] theorem State.halt_mem :
    s.halt.mem = s.mem := rfl
@[simp] theorem State.halt_run :
    s.halt.run = .halted := rfl
@[simp] theorem State.halt_routine :
    s.halt.routine = s.routine := rfl
@[simp] theorem State.halt_consoleIn :
    s.halt.consoleIn = s.consoleIn := rfl
@[simp] theorem State.halt_consoleOut :
    s.halt.consoleOut = s.consoleOut := rfl
@[simp] theorem State.halt_deviceOut :
    s.halt.deviceOut = s.deviceOut := rfl
@[simp] theorem State.halt_draws :
    s.halt.draws = s.draws := rfl
@[simp] theorem State.halt_params :
    s.halt.params = s.params := rfl

@[simp] theorem State.enterTrap_regs :
    s.enterTrap.regs = s.regs.set 7 s.pc := rfl
@[simp] theorem State.enterTrap_pc :
    s.enterTrap.pc = s.pc := rfl
@[simp] theorem State.enterTrap_cc :
    s.enterTrap.cc = ccOf s.pc := rfl
@[simp] theorem State.enterTrap_mem :
    s.enterTrap.mem = s.mem := rfl
@[simp] theorem State.enterTrap_run :
    s.enterTrap.run = s.run := rfl
@[simp] theorem State.enterTrap_routine :
    s.enterTrap.routine = s.routine := rfl
@[simp] theorem State.enterTrap_consoleIn :
    s.enterTrap.consoleIn = s.consoleIn := rfl
@[simp] theorem State.enterTrap_consoleOut :
    s.enterTrap.consoleOut = s.consoleOut := rfl
@[simp] theorem State.enterTrap_deviceOut :
    s.enterTrap.deviceOut = s.deviceOut := rfl
@[simp] theorem State.enterTrap_draws :
    s.enterTrap.draws = s.draws := rfl
@[simp] theorem State.enterTrap_params :
    s.enterTrap.params = s.params := rfl

@[simp] theorem State.drawn_regs :
    s.drawn.regs = s.regs := rfl
@[simp] theorem State.drawn_pc :
    s.drawn.pc = s.pc := rfl
@[simp] theorem State.drawn_cc :
    s.drawn.cc = s.cc := rfl
@[simp] theorem State.drawn_mem :
    s.drawn.mem = s.mem := rfl
@[simp] theorem State.drawn_run :
    s.drawn.run = s.run := rfl
@[simp] theorem State.drawn_routine :
    s.drawn.routine = s.routine := rfl
@[simp] theorem State.drawn_consoleIn :
    s.drawn.consoleIn = s.consoleIn := rfl
@[simp] theorem State.drawn_consoleOut :
    s.drawn.consoleOut = s.consoleOut := rfl
@[simp] theorem State.drawn_deviceOut :
    s.drawn.deviceOut = s.deviceOut := rfl
@[simp] theorem State.drawn_draws :
    s.drawn.draws = s.draws + 1 := rfl
@[simp] theorem State.drawn_params :
    s.drawn.params = s.params := rfl

@[simp] theorem State.sendDevice_regs (a v : Word) :
    (s.sendDevice a v).regs = s.regs := rfl
@[simp] theorem State.sendDevice_pc (a v : Word) :
    (s.sendDevice a v).pc = s.pc := rfl
@[simp] theorem State.sendDevice_cc (a v : Word) :
    (s.sendDevice a v).cc = s.cc := rfl
@[simp] theorem State.sendDevice_mem (a v : Word) :
    (s.sendDevice a v).mem = s.mem := rfl
@[simp] theorem State.sendDevice_run (a v : Word) :
    (s.sendDevice a v).run = s.run := rfl
@[simp] theorem State.sendDevice_routine (a v : Word) :
    (s.sendDevice a v).routine = s.routine := rfl
@[simp] theorem State.sendDevice_consoleIn (a v : Word) :
    (s.sendDevice a v).consoleIn = s.consoleIn := rfl
@[simp] theorem State.sendDevice_consoleOut (a v : Word) :
    (s.sendDevice a v).consoleOut = s.consoleOut := rfl
@[simp] theorem State.sendDevice_deviceOut (a v : Word) :
    (s.sendDevice a v).deviceOut = s.deviceOut ++ [(a, v)] := rfl
@[simp] theorem State.sendDevice_draws (a v : Word) :
    (s.sendDevice a v).draws = s.draws := rfl
@[simp] theorem State.sendDevice_params (a v : Word) :
    (s.sendDevice a v).params = s.params := rfl

@[simp] theorem State.writeMem_regs (a v : Word) :
    (s.writeMem a v).regs = s.regs := rfl
@[simp] theorem State.writeMem_pc (a v : Word) :
    (s.writeMem a v).pc = s.pc := rfl
@[simp] theorem State.writeMem_cc (a v : Word) :
    (s.writeMem a v).cc = s.cc := rfl
@[simp] theorem State.writeMem_mem (a v : Word) :
    (s.writeMem a v).mem = s.mem.write a v := rfl
@[simp] theorem State.writeMem_run (a v : Word) :
    (s.writeMem a v).run = s.run := rfl
@[simp] theorem State.writeMem_routine (a v : Word) :
    (s.writeMem a v).routine = s.routine := rfl
@[simp] theorem State.writeMem_consoleIn (a v : Word) :
    (s.writeMem a v).consoleIn = s.consoleIn := rfl
@[simp] theorem State.writeMem_consoleOut (a v : Word) :
    (s.writeMem a v).consoleOut = s.consoleOut := rfl
@[simp] theorem State.writeMem_deviceOut (a v : Word) :
    (s.writeMem a v).deviceOut = s.deviceOut := rfl
@[simp] theorem State.writeMem_draws (a v : Word) :
    (s.writeMem a v).draws = s.draws := rfl
@[simp] theorem State.writeMem_params (a v : Word) :
    (s.writeMem a v).params = s.params := rfl

@[simp] theorem State.writeChar_regs (c : Word) :
    (s.writeChar c).regs = s.regs := rfl
@[simp] theorem State.writeChar_pc (c : Word) :
    (s.writeChar c).pc = s.pc := rfl
@[simp] theorem State.writeChar_cc (c : Word) :
    (s.writeChar c).cc = s.cc := rfl
@[simp] theorem State.writeChar_mem (c : Word) :
    (s.writeChar c).mem = s.mem := rfl
@[simp] theorem State.writeChar_run (c : Word) :
    (s.writeChar c).run = s.run := rfl
@[simp] theorem State.writeChar_routine (c : Word) :
    (s.writeChar c).routine = s.routine := rfl
@[simp] theorem State.writeChar_consoleIn (c : Word) :
    (s.writeChar c).consoleIn = s.consoleIn := rfl
@[simp] theorem State.writeChar_consoleOut (c : Word) :
    (s.writeChar c).consoleOut = s.consoleOut ++ [c] := rfl
@[simp] theorem State.writeChar_deviceOut (c : Word) :
    (s.writeChar c).deviceOut = s.deviceOut := rfl
@[simp] theorem State.writeChar_draws (c : Word) :
    (s.writeChar c).draws = s.draws := rfl
@[simp] theorem State.writeChar_params (c : Word) :
    (s.writeChar c).params = s.params := rfl

@[simp] theorem State.setReady_regs (rest : List Word) :
    (s.setReady rest).regs = s.regs := rfl
@[simp] theorem State.setReady_pc (rest : List Word) :
    (s.setReady rest).pc = s.pc := rfl
@[simp] theorem State.setReady_cc (rest : List Word) :
    (s.setReady rest).cc = s.cc := rfl
@[simp] theorem State.setReady_mem (rest : List Word) :
    (s.setReady rest).mem = s.mem := rfl
@[simp] theorem State.setReady_run (rest : List Word) :
    (s.setReady rest).run = s.run := rfl
@[simp] theorem State.setReady_routine (rest : List Word) :
    (s.setReady rest).routine = s.routine := rfl
@[simp] theorem State.setReady_consoleIn (rest : List Word) :
    (s.setReady rest).consoleIn = rest := rfl
@[simp] theorem State.setReady_consoleOut (rest : List Word) :
    (s.setReady rest).consoleOut = s.consoleOut := rfl
@[simp] theorem State.setReady_deviceOut (rest : List Word) :
    (s.setReady rest).deviceOut = s.deviceOut := rfl
@[simp] theorem State.setReady_draws (rest : List Word) :
    (s.setReady rest).draws = s.draws := rfl
@[simp] theorem State.setReady_params (rest : List Word) :
    (s.setReady rest).params = s.params := rfl

@[simp] theorem State.suspend_regs (r : Routine) :
    (s.suspend r).regs = s.regs := rfl
@[simp] theorem State.suspend_pc (r : Routine) :
    (s.suspend r).pc = s.pc := rfl
@[simp] theorem State.suspend_cc (r : Routine) :
    (s.suspend r).cc = s.cc := rfl
@[simp] theorem State.suspend_mem (r : Routine) :
    (s.suspend r).mem = s.mem := rfl
@[simp] theorem State.suspend_run (r : Routine) :
    (s.suspend r).run = s.run := rfl
@[simp] theorem State.suspend_routine (r : Routine) :
    (s.suspend r).routine = some r := rfl
@[simp] theorem State.suspend_consoleIn (r : Routine) :
    (s.suspend r).consoleIn = s.consoleIn := rfl
@[simp] theorem State.suspend_consoleOut (r : Routine) :
    (s.suspend r).consoleOut = s.consoleOut := rfl
@[simp] theorem State.suspend_deviceOut (r : Routine) :
    (s.suspend r).deviceOut = s.deviceOut := rfl
@[simp] theorem State.suspend_draws (r : Routine) :
    (s.suspend r).draws = s.draws := rfl
@[simp] theorem State.suspend_params (r : Routine) :
    (s.suspend r).params = s.params := rfl

@[simp] theorem State.resumed_regs :
    s.resumed.regs = s.regs := rfl
@[simp] theorem State.resumed_pc :
    s.resumed.pc = s.pc := rfl
@[simp] theorem State.resumed_cc :
    s.resumed.cc = s.cc := rfl
@[simp] theorem State.resumed_mem :
    s.resumed.mem = s.mem := rfl
@[simp] theorem State.resumed_run :
    s.resumed.run = s.run := rfl
@[simp] theorem State.resumed_routine :
    s.resumed.routine = none := rfl
@[simp] theorem State.resumed_consoleIn :
    s.resumed.consoleIn = s.consoleIn := rfl
@[simp] theorem State.resumed_consoleOut :
    s.resumed.consoleOut = s.consoleOut := rfl
@[simp] theorem State.resumed_deviceOut :
    s.resumed.deviceOut = s.deviceOut := rfl
@[simp] theorem State.resumed_draws :
    s.resumed.draws = s.draws := rfl
@[simp] theorem State.resumed_params :
    s.resumed.params = s.params := rfl

@[simp] theorem State.placeAtPc_regs (w : Word) :
    (s.placeAtPc w).regs = s.regs := rfl
@[simp] theorem State.placeAtPc_pc (w : Word) :
    (s.placeAtPc w).pc = s.pc := rfl
@[simp] theorem State.placeAtPc_cc (w : Word) :
    (s.placeAtPc w).cc = s.cc := rfl
@[simp] theorem State.placeAtPc_mem (w : Word) :
    (s.placeAtPc w).mem = s.mem.write s.pc w := rfl
@[simp] theorem State.placeAtPc_run (w : Word) :
    (s.placeAtPc w).run = s.run := rfl
@[simp] theorem State.placeAtPc_routine (w : Word) :
    (s.placeAtPc w).routine = none := rfl
@[simp] theorem State.placeAtPc_consoleIn (w : Word) :
    (s.placeAtPc w).consoleIn = s.consoleIn := rfl
@[simp] theorem State.placeAtPc_consoleOut (w : Word) :
    (s.placeAtPc w).consoleOut = s.consoleOut := rfl
@[simp] theorem State.placeAtPc_deviceOut (w : Word) :
    (s.placeAtPc w).deviceOut = s.deviceOut := rfl
@[simp] theorem State.placeAtPc_draws (w : Word) :
    (s.placeAtPc w).draws = s.draws := rfl
@[simp] theorem State.placeAtPc_params (w : Word) :
    (s.placeAtPc w).params = s.params := rfl

end Sys2Proof.Machine
end

