-- ==== Sys2Proof/Laws/Memory.lean ====
section
/-! SUPPORT. The laws of the memory array: a read after a write gives the value written, a write leaves every other
cell alone, a write keeps the canonical form, and two canonical memories that read alike are equal. -/

namespace Sys2Proof.Machine

@[simp] theorem Memory.read_nil (a : Word) : Memory.read [] a = Memory.unlisted := rfl

theorem Memory.read_cons (c : Cell) (m : Memory) (a : Word) :
    Memory.read (c :: m) a = if c.1 = a.toNat then c.2 else Memory.read m a := rfl

/-- An address below every listed one reads as an unlisted address. -/
theorem Memory.read_of_all_lt (m : Memory) (a : Word) (h : ∀ c ∈ m, a.toNat < c.1) :
    Memory.read m a = Memory.unlisted := by
  induction m with
  | nil => rfl
  | cons c m ih =>
    have hc := h c (by simp)
    rw [Memory.read_cons, if_neg (by omega)]
    exact ih fun d hd => h d (by simp [hd])

theorem Memory.wf_cons (c : Cell) (m : Memory) :
    Memory.wf (c :: m) = true ↔
      c.1 < 65536 ∧ c.2 ≠ Memory.unlisted ∧ (∀ d ∈ m, c.1 < d.1) ∧ Memory.wf m = true := by
  simp [Memory.wf, and_assoc]

/-- A write changes no other cell. -/
theorem Memory.read_write_ne (m : Memory) (a b v : Word) (h : a ≠ b) :
    (m.write a v).read b = m.read b := by
  have hn : a.toNat ≠ b.toNat := fun e => h (BitVec.eq_of_toNat_eq e)
  induction m with
  | nil =>
    simp only [Memory.write]
    split
    · rfl
    · rw [Memory.read_cons, if_neg hn]
  | cons c m ih =>
    obtain ⟨k, u⟩ := c
    simp only [Memory.write]
    split <;> [split; (split <;> [split; skip])]
    · rfl
    · rw [Memory.read_cons, if_neg hn]
    · rename_i _ e _
      rw [Memory.read_cons, if_neg (show (k, u).1 ≠ b.toNat by omega)]
    · rename_i _ e _
      rw [Memory.read_cons, if_neg hn, Memory.read_cons, if_neg (show (k, u).1 ≠ b.toNat by omega)]
    · rw [Memory.read_cons, Memory.read_cons, ih]

/-- A read after a write to the same cell gives the value written. -/
theorem Memory.read_write_same (m : Memory) (a v : Word) (h : m.wf = true) : (m.write a v).read a = v := by
  induction m with
  | nil =>
    simp only [Memory.write]
    split
    · rename_i e; simp [e]
    · simp [Memory.read_cons]
  | cons c m ih =>
    obtain ⟨k, u⟩ := c
    obtain ⟨-, -, hlt, hm⟩ := (Memory.wf_cons _ _).1 h
    simp only [Memory.write]
    split <;> [split; (split <;> [split; skip])]
    · rename_i hk e
      rw [e, Memory.read_cons, if_neg (show (k, u).1 ≠ a.toNat by omega)]
      exact Memory.read_of_all_lt m a fun d hd => Nat.lt_trans hk (hlt d hd)
    · simp [Memory.read_cons]
    · rename_i _ hk e
      rw [e]
      exact Memory.read_of_all_lt m a fun d hd => hk ▸ hlt d hd
    · simp [Memory.read_cons]
    · rw [Memory.read_cons, if_neg (show (k, u).1 ≠ a.toNat by omega), ih hm]

/-- The addresses a write leaves listed are the one written and those listed before. -/
theorem Memory.mem_write (m : Memory) (a v : Word) (d : Cell) (h : d ∈ m.write a v) : d.1 = a.toNat ∨ d ∈ m := by
  induction m with
  | nil =>
    simp only [Memory.write] at h
    split at h <;> simp_all
  | cons c m ih =>
    obtain ⟨k, u⟩ := c
    simp only [Memory.write] at h
    split at h <;> [split at h; (split at h <;> [split at h; skip])]
    · exact .inr h
    · rcases List.mem_cons.1 h with rfl | h
      · exact .inl rfl
      · exact .inr h
    · exact .inr (List.mem_cons_of_mem _ h)
    · rcases List.mem_cons.1 h with rfl | h
      · exact .inl rfl
      · exact .inr (List.mem_cons_of_mem _ h)
    · rcases List.mem_cons.1 h with rfl | h
      · exact .inr (by simp)
      · exact (ih h).imp id (List.mem_cons_of_mem _)

/-- A write keeps the canonical form. -/
theorem Memory.wf_write (m : Memory) (a v : Word) (h : m.wf = true) : (m.write a v).wf = true := by
  have ha : a.toNat < 65536 := a.isLt
  induction m with
  | nil =>
    simp only [Memory.write]
    split
    · rfl
    · rename_i hv; exact (Memory.wf_cons _ _).2 ⟨ha, hv, by simp, rfl⟩
  | cons c m ih =>
    obtain ⟨k, u⟩ := c
    obtain ⟨hk, hu, hlt, hm⟩ := (Memory.wf_cons _ _).1 h
    simp only [Memory.write]
    split <;> [split; (split <;> [split; skip])]
    · exact h
    · rename_i hak hv
      refine (Memory.wf_cons _ _).2 ⟨ha, hv, fun d hd => ?_, h⟩
      rcases List.mem_cons.1 hd with rfl | hd
      · exact hak
      · exact Nat.lt_trans hak (hlt d hd)
    · exact hm
    · rename_i _ hak hv
      exact (Memory.wf_cons _ _).2 ⟨ha, hv, fun d hd => hak ▸ hlt d hd, hm⟩
    · rename_i h1 h2
      refine (Memory.wf_cons _ _).2 ⟨hk, hu, fun d hd => ?_, ih hm⟩
      rcases Memory.mem_write m a v d hd with e | hd
      · show k < d.1
        omega
      · exact hlt d hd

/-- A canonical memory lists an address below 65536 at most once, so its head is what it reads there. -/
theorem Memory.read_head (c : Cell) (m : Memory) (h : Memory.wf (c :: m) = true) :
    Memory.read (c :: m) (BitVec.ofNat 16 c.1) = c.2 := by
  obtain ⟨hk, -⟩ := (Memory.wf_cons _ _).1 h
  have e : (BitVec.ofNat 16 c.1).toNat = c.1 := by simp [Nat.mod_eq_of_lt hk]
  rw [Memory.read_cons, if_pos e.symm]

/-- Equal memories are equal data: canonical memories that read alike everywhere are the same list. -/
theorem Memory.ext_of_wf (m n : Memory) (hm : m.wf = true) (hn : n.wf = true) (h : ∀ a, m.read a = n.read a) : m = n := by
  induction m generalizing n with
  | nil =>
    cases n with
    | nil => rfl
    | cons d n =>
      have e := h (BitVec.ofNat 16 d.1)
      rw [Memory.read_head d n hn] at e
      exact absurd e.symm ((Memory.wf_cons _ _).1 hn).2.1
  | cons c m ih =>
    obtain ⟨hck, hcv, hclt, hcm⟩ := (Memory.wf_cons _ _).1 hm
    cases n with
    | nil =>
      have e := h (BitVec.ofNat 16 c.1)
      rw [Memory.read_head c m hm] at e
      exact absurd e hcv
    | cons d n =>
      obtain ⟨hdk, hdv, hdlt, hdm⟩ := (Memory.wf_cons _ _).1 hn
      have ec : (BitVec.ofNat 16 c.1).toNat = c.1 := by simp [Nat.mod_eq_of_lt hck]
      have ed : (BitVec.ofNat 16 d.1).toNat = d.1 := by simp [Nat.mod_eq_of_lt hdk]
      have hk : c.1 = d.1 := by
        rcases Nat.lt_trichotomy c.1 d.1 with lt | eq | gt
        · have e := h (BitVec.ofNat 16 c.1)
          rw [Memory.read_head c m hm, Memory.read_of_all_lt (d :: n)] at e
          · exact absurd e hcv
          · intro x hx
            rcases List.mem_cons.1 hx with rfl | hx
            · omega
            · have := hdlt x hx; omega
        · exact eq
        · have e := h (BitVec.ofNat 16 d.1)
          rw [Memory.read_head d n hn, Memory.read_of_all_lt (c :: m)] at e
          · exact absurd e.symm hdv
          · intro x hx
            rcases List.mem_cons.1 hx with rfl | hx
            · omega
            · have := hclt x hx; omega
      have hv : c.2 = d.2 := by
        have e := h (BitVec.ofNat 16 c.1)
        rwa [Memory.read_head c m hm, Memory.read_cons, if_pos (by omega)] at e
      have hmn : m = n := ih n hcm hdm fun a => by
        by_cases hca : c.1 = a.toNat
        · rw [Memory.read_of_all_lt m a fun x hx => by have := hclt x hx; omega,
            Memory.read_of_all_lt n a fun x hx => by have := hdlt x hx; omega]
        · have e := h a
          rwa [Memory.read_cons, if_neg hca, Memory.read_cons, if_neg (by omega)] at e
      rw [hmn, Prod.ext hk hv]

end Sys2Proof.Machine
end

