-- ==== Sys2Proof/Laws/Ops.lean ====
section
/-! SUPPORT. One lemma for each shared operation that says once everything it can do: callers cite it and do not unfold
the operation. -/

namespace Sys2Proof.Machine

/-! ### Registers and flags -/

theorem State.readReg_writeReg_same (s : State) (r : RegIdx) (v : Word) : (s.writeReg r v).readReg r = v := by
  simp [State.readReg]

theorem State.readReg_writeReg_ne (s : State) (r q : RegIdx) (v : Word) (h : q ≠ r) :
    (s.writeReg r v).readReg q = s.readReg q := by
  have hn : r.toNat ≠ q.toNat := fun e => h (BitVec.eq_of_toNat_eq e.symm)
  simp [State.readReg, Vector.getElem_set_ne, hn]

/-- What a register reads depends on the register file alone. -/
theorem State.readReg_congr {s t : State} (h : t.regs = s.regs) (r : RegIdx) : t.readReg r = s.readReg r := by
  simp [State.readReg, h]

@[simp] theorem State.readReg_setPc (s : State) (v : Word) (r : RegIdx) : (s.setPc v).readReg r = s.readReg r := rfl
@[simp] theorem State.readReg_advancePc (s : State) (r : RegIdx) : s.advancePc.readReg r = s.readReg r := rfl
@[simp] theorem State.readReg_drawn (s : State) (r : RegIdx) : s.drawn.readReg r = s.readReg r := rfl
@[simp] theorem State.readReg_raise (s : State) (c : FaultCause) (f : Word) (r : RegIdx) :
    (s.raise c f).readReg r = s.readReg r := rfl

/-- SetCC leaves exactly one flag (R25). -/
theorem ccOf_legal (v : Word) : ccLegal (ccOf v) = true := by
  unfold ccOf
  split
  · decide
  · split <;> decide

/-! ### The access path -/

theorem State.readCell_plain (s : State) (a : Word) (h : s.isDevice a = false) :
    s.readCell a = some (s.mem.read a, s) := by simp [State.readCell, h]

theorem State.readCell_attached (s : State) (a : Word) (h : s.isDevice a = true)
    (ha : s.params.deviceAttached = true) : s.readCell a = some (s.deviceValue a, s.drawn) := by
  simp [State.readCell, h, ha]

theorem State.readCell_absent (s : State) (a : Word) (h : s.isDevice a = true)
    (ha : s.params.deviceAttached = false) : s.readCell a = none := by simp [State.readCell, h, ha]

/-- A read that succeeds leaves the state as it was, or counts one draw of the host. -/
theorem State.readCell_state (s s' : State) (a v : Word) (h : s.readCell a = some (v, s')) :
    s' = s ∨ s' = s.drawn := by
  unfold State.readCell at h
  split at h
  · split at h
    · exact .inr (by simpa using (congrArg (Option.map Prod.snd) h).symm)
    · cases h
  · exact .inl (by simpa using (congrArg (Option.map Prod.snd) h).symm)

/-- A read fails at a device address with no device attached, and only there. -/
theorem State.readCell_none (s : State) (a : Word) :
    s.readCell a = none ↔ s.isDevice a = true ∧ s.params.deviceAttached = false := by
  unfold State.readCell
  cases s.isDevice a <;> cases s.params.deviceAttached <;> simp

theorem State.load_plain (s : State) (op : Opcode) (f a : Word) (k : Word → State → Result)
    (h : s.isDevice a = false) : s.load op f a k = k (s.mem.read a) s := by simp [State.load, s.readCell_plain a h]

theorem State.load_attached (s : State) (op : Opcode) (f a : Word) (k : Word → State → Result)
    (h : s.isDevice a = true) (ha : s.params.deviceAttached = true) :
    s.load op f a k = k (s.deviceValue a) s.drawn := by simp [State.load, s.readCell_attached a h ha]

theorem State.load_absent (s : State) (op : Opcode) (f a : Word) (k : Word → State → Result)
    (h : s.isDevice a = true) (ha : s.params.deviceAttached = false) :
    s.load op f a k = .next (s.raise (.unimplementedDevice a .read (some (opcodeBits op))) f) := by
  simp [State.load, s.readCell_absent a h ha]

/-- Everything a data read can do: it raises UnimplementedDevice, or the rest of the handler runs. -/
theorem State.load_next (s t : State) (op : Opcode) (f a : Word) (k : Word → State → Result)
    (h : s.load op f a k = .next t) :
    (s.isDevice a = true ∧ s.params.deviceAttached = false ∧
      t = s.raise (.unimplementedDevice a .read (some (opcodeBits op))) f) ∨
    ∃ v s', s.readCell a = some (v, s') ∧ (s' = s ∨ s' = s.drawn) ∧ k v s' = .next t := by
  unfold State.load at h
  split at h
  · rename_i v s' e
    exact .inr ⟨v, s', e, s.readCell_state s' a v e, h⟩
  · rename_i e
    obtain ⟨h1, h2⟩ := (s.readCell_none a).1 e
    exact .inl ⟨h1, h2, by simpa using h.symm⟩

theorem State.store_plain (s : State) (op : Opcode) (f a v : Word) (h : s.isDevice a = false) :
    s.store op f a v = .next (s.writeMem a v) := by simp [State.store, State.writeCell, h]

theorem State.store_attached (s : State) (op : Opcode) (f a v : Word) (h : s.isDevice a = true)
    (ha : s.params.deviceAttached = true) : s.store op f a v = .next (s.sendDevice a v) := by
  simp [State.store, State.writeCell, h, ha]

theorem State.store_absent (s : State) (op : Opcode) (f a v : Word) (h : s.isDevice a = true)
    (ha : s.params.deviceAttached = false) :
    s.store op f a v = .next (s.raise (.unimplementedDevice a .write (some (opcodeBits op))) f) := by
  simp [State.store, State.writeCell, h, ha]

/-- Everything a data write can do. -/
theorem State.store_cases (s : State) (op : Opcode) (f a v : Word) :
    (s.isDevice a = false ∧ s.store op f a v = .next (s.writeMem a v)) ∨
    (s.isDevice a = true ∧ s.params.deviceAttached = true ∧ s.store op f a v = .next (s.sendDevice a v)) ∨
    (s.isDevice a = true ∧ s.params.deviceAttached = false ∧
      s.store op f a v = .next (s.raise (.unimplementedDevice a .write (some (opcodeBits op))) f)) := by
  cases h : s.isDevice a with
  | false => exact .inl ⟨rfl, s.store_plain op f a v h⟩
  | true =>
    cases ha : s.params.deviceAttached with
    | true => exact .inr (.inl ⟨rfl, rfl, s.store_attached op f a v h ha⟩)
    | false => exact .inr (.inr ⟨rfl, rfl, s.store_absent op f a v h ha⟩)

/-! ### The console port -/

/-- writeChar of each value in turn appends the values in order. -/
theorem State.writeChars_eq (s : State) (cs : List Word) :
    s.writeChars cs = { s with consoleOut := s.consoleOut ++ cs } := by
  induction cs generalizing s with
  | nil => simp [State.writeChars]
  | cons c cs ih =>
    have e : s.writeChars (c :: cs) = (s.writeChar c).writeChars cs := rfl
    rw [e, ih]
    simp [State.writeChar, List.append_assoc]

theorem State.awaitChar_ready (s : State) (r : Routine) (c : Word) (rest : List Word) (k : Word → State → Result)
    (h : s.consoleIn = c :: rest) : s.awaitChar r k = k c (s.setReady rest) := by
  simp [State.awaitChar, State.readChar, h]

theorem State.awaitChar_drawn (s : State) (r : Routine) (c : Word) (k : Word → State → Result) (h : s.consoleIn = [])
    (hc : Config.consoleAnswer s.draws = some c) : s.awaitChar r k = k c s.drawn := by
  simp [State.awaitChar, State.readChar, h, hc]

theorem State.awaitChar_silent (s : State) (r : Routine) (k : Word → State → Result) (h : s.consoleIn = [])
    (hc : Config.consoleAnswer s.draws = none) : s.awaitChar r k = .next (s.drawn.suspend r) := by
  simp [State.awaitChar, State.readChar, h, hc]

/-- Everything a readChar can do: it takes a ready value, or the host's answer, or the engine stays suspended. -/
theorem State.awaitChar_cases (s : State) (r : Routine) (k : Word → State → Result) :
    (∃ c s', ((∃ rest, s.consoleIn = c :: rest ∧ s' = s.setReady rest) ∨
      (s.consoleIn = [] ∧ Config.consoleAnswer s.draws = some c ∧ s' = s.drawn)) ∧ s.awaitChar r k = k c s') ∨
    (s.consoleIn = [] ∧ Config.consoleAnswer s.draws = none ∧ s.awaitChar r k = .next (s.drawn.suspend r)) := by
  cases hin : s.consoleIn with
  | cons c rest => exact .inl ⟨c, _, .inl ⟨rest, rfl, rfl⟩, s.awaitChar_ready r c rest k hin⟩
  | nil =>
    cases hc : Config.consoleAnswer s.draws with
    | none => exact .inr ⟨rfl, rfl, s.awaitChar_silent r k hin hc⟩
    | some c => exact .inl ⟨c, _, .inr ⟨rfl, rfl, rfl⟩, s.awaitChar_drawn r c k hin hc⟩

/-! ### The gates of a step -/

theorem State.whenRunning_next (s t : State) (k : Result) (h : s.whenRunning k = .next t) :
    s.run = .running ∧ k = .next t := by
  unfold State.whenRunning at h
  split at h <;> simp_all

/-- Everything a fetch can do: it raises UnimplementedDevice with PC kept, or the rest of the step runs. -/
theorem State.fetch_next (s t : State) (k : Word → State → Result) (h : s.fetch k = .next t) :
    (s.isDevice s.pc = true ∧ s.params.deviceAttached = false ∧
      t = s.raise (.unimplementedDevice s.pc .fetch none) s.pc) ∨
    ∃ w s', s.readCell s.pc = some (w, s') ∧ (s' = s ∨ s' = s.drawn) ∧ k w s' = .next t := by
  unfold State.fetch at h
  split at h
  · rename_i w s' e
    exact .inr ⟨w, s', e, s.readCell_state s' _ w e, h⟩
  · rename_i e
    obtain ⟨h1, h2⟩ := (s.readCell_none _).1 e
    exact .inl ⟨h1, h2, by simpa using h.symm⟩

theorem State.acceptWord_next (s t : State) (w : Word) (k : Result) (h : s.acceptWord w k = .next t) : k = .next t := by
  unfold State.acceptWord at h
  split at h <;> simp_all

theorem State.resumeOr_none (s : State) (k : Result) (h : s.routine = none) : s.resumeOr k = k := by
  simp [State.resumeOr, h]

theorem State.resumeOr_some (s : State) (r : Routine) (k : Result) (h : s.routine = some r) :
    s.resumeOr k = resumeRoutine r s.resumed := by simp [State.resumeOr, h]

/-- Everything a step can do where it answers a next state: the machine was RUNNING, and the routine it was suspended in
went on, or, suspended in none, its fetch raised UnimplementedDevice or the decoded instruction ran. -/
theorem step_next (s t : State) (h : step s = .next t) :
    s.run = .running ∧
      ((∃ r, s.routine = some r ∧ resumeRoutine r s.resumed = .next t) ∨
        s.routine = none ∧
        ((s.isDevice s.pc = true ∧ s.params.deviceAttached = false ∧
          t = s.raise (.unimplementedDevice s.pc .fetch none) s.pc) ∨
        ∃ w s', s.readCell s.pc = some (w, s') ∧ (s' = s ∨ s' = s.drawn) ∧ exec (decode w) s' = .next t)) := by
  obtain ⟨hr, h⟩ := s.whenRunning_next t _ h
  refine ⟨hr, ?_⟩
  cases hs : s.routine with
  | some r => exact .inl ⟨r, rfl, by rwa [s.resumeOr_some r _ hs] at h⟩
  | none =>
    rw [s.resumeOr_none _ hs] at h
    refine .inr ⟨rfl, (s.fetch_next t _ h).imp id ?_⟩
    rintro ⟨w, s', e, hd, hk⟩
    exact ⟨w, s', e, hd, s'.acceptWord_next t w _ hk⟩

/-! ### What a host sees -/

/-- A host sees no state inside a scan, and every other state. -/
theorem State.seen_eq_false (s : State) :
    s.seen = false ↔ ∃ a, s.routine = some (.puts a) ∨ s.routine = some (.putsp a) := by
  unfold State.seen
  cases s.routine with
  | none => simp
  | some r => cases r <;> simp [Routine.seen]

theorem State.hostView_eq_none (s : State) : s.hostView = none ↔ s.seen = false := by
  unfold State.hostView
  cases s.seen <;> simp

/-- A state a host can see shows it the fields of the state. -/
theorem State.hostView_of_seen (s : State) (h : s.seen = true) : s.hostView = some
    { regs := s.regs, pc := s.pc, cc := s.cc, mem := s.mem, run := s.run, waiting := s.routine.isSome,
      consoleOut := s.consoleOut, deviceOut := s.deviceOut } := by
  simp [State.hostView, h]

/-- Everything a HostStep can be, given what the step of the model answers. -/
theorem HostStep.of_step {s u t : State} (h : step s = .next u) :
    HostStep s t ↔ (u.seen = true ∧ t = u) ∨ (u.seen = false ∧ HostStep u t) := by
  constructor
  · rintro (⟨h', ht⟩ | ⟨h', hu, ht⟩) <;> (rw [h] at h'; cases h')
    · exact .inl ⟨ht, rfl⟩
    · exact .inr ⟨hu, ht⟩
  · rintro (⟨hu, rfl⟩ | ⟨hu, ht⟩)
    · exact .seen h hu
    · exact .unseen h hu ht

/-! ### The string scans -/

/-- What a PUTS or PUTSP scan leaves alone, and what it may change: draws (counted up only), the console output (appended
to only), the run state (kept, or UnimplementedDevice raised) and the routine (kept, or the scan's own, RUNNING kept). -/
structure ScanFrame (fetchPc : Word) (s t : State) : Prop where
  regs : t.regs = s.regs
  pc : t.pc = s.pc
  cc : t.cc = s.cc
  mem : t.mem = s.mem
  consoleIn : t.consoleIn = s.consoleIn
  deviceOut : t.deviceOut = s.deviceOut
  params : t.params = s.params
  draws : s.draws ≤ t.draws
  out : ∃ cs, t.consoleOut = s.consoleOut ++ cs
  run : t.run = s.run ∨ ∃ a, s.isDevice a = true ∧ s.params.deviceAttached = false ∧
    t.run = .faulted ⟨.unimplementedDevice a .read (some (opcodeBits .trap)), fetchPc⟩
  routine : t.routine = s.routine ∨
    (t.run = s.run ∧ ∃ a, t.routine = some (.puts a) ∨ t.routine = some (.putsp a))

theorem ScanFrame.refl (f : Word) (s : State) : ScanFrame f s s :=
  ⟨rfl, rfl, rfl, rfl, rfl, rfl, rfl, Nat.le_refl _, ⟨[], by simp⟩, .inl rfl, .inl rfl⟩

theorem ScanFrame.suspend_puts (f a : Word) (s : State) : ScanFrame f s (s.suspend (.puts a)) :=
  ⟨rfl, rfl, rfl, rfl, rfl, rfl, rfl, Nat.le_refl _, ⟨[], by simp⟩, .inl rfl, .inr ⟨rfl, a, .inl rfl⟩⟩

theorem ScanFrame.suspend_putsp (f a : Word) (s : State) : ScanFrame f s (s.suspend (.putsp a)) :=
  ⟨rfl, rfl, rfl, rfl, rfl, rfl, rfl, Nat.le_refl _, ⟨[], by simp⟩, .inl rfl, .inr ⟨rfl, a, .inr rfl⟩⟩

/-- A read, and then writeChar of some values, stays within the frame. -/
theorem ScanFrame.step {f : Word} {s s' t : State} (cs : List Word) (hs : s' = s ∨ s' = s.drawn)
    (h : ScanFrame f (s'.writeChars cs) t) : ScanFrame f s t := by
  obtain ⟨h1, h2, h3, h4, h5, h6, h7, hd, ⟨o, h8⟩, h9, h10⟩ := h
  rw [State.writeChars_eq] at *
  rcases hs with rfl | rfl
  · exact ⟨h1, h2, h3, h4, h5, h6, h7, hd, ⟨cs ++ o, by simpa using h8⟩, h9, h10⟩
  · exact ⟨h1, h2, h3, h4, h5, h6, h7, Nat.le_of_succ_le hd, ⟨cs ++ o, by simpa using h8⟩, h9, h10⟩

theorem ScanFrame.raised (f a : Word) (s : State) (h : s.isDevice a = true) (ha : s.params.deviceAttached = false) :
    ScanFrame f s (s.raise (.unimplementedDevice a .read (some (opcodeBits .trap))) f) :=
  ⟨rfl, rfl, rfl, rfl, rfl, rfl, rfl, Nat.le_refl _, ⟨[], by simp⟩, .inr ⟨a, h, ha, rfl⟩, .inl rfl⟩

theorem putsScan_frame (n : Nat) (f a : Word) (s t : State) (h : putsScan n f a s = .next t) : ScanFrame f s t := by
  induction n generalizing a s with
  | zero => cases h; exact .suspend_puts f a s
  | succ n ih =>
    rcases s.load_next t _ f a _ h with ⟨h1, h2, rfl⟩ | ⟨c, s', -, hs, hk⟩
    · exact .raised f a s h1 h2
    · split at hk
      · cases hk; exact .step [] hs (.refl _ _)
      · exact .step [c] hs (ih _ _ hk)

theorem putspScan_frame (n : Nat) (f a : Word) (s t : State) (h : putspScan n f a s = .next t) : ScanFrame f s t := by
  induction n generalizing a s with
  | zero => cases h; exact .suspend_putsp f a s
  | succ n ih =>
    rcases s.load_next t _ f a _ h with ⟨h1, h2, rfl⟩ | ⟨c, s', -, hs, hk⟩
    · exact .raised f a s h1 h2
    · dsimp only at hk
      split at hk
      · cases hk; exact .step [] hs (.refl _ _)
      · split at hk
        · cases hk; exact .step [zext16 (field c 0 8)] hs (.refl _ _)
        · exact .step [zext16 (field c 0 8), zext16 (field c 8 8)] hs (ih _ _ hk)

/-- With no device attached, a cell that a scan reads is plain, so the distance to KBSR_ADDR is not yet zero. -/
theorem State.readCell_distance (s s' : State) (a v : Word) (h : s.readCell a = some (v, s'))
    (ha : s.params.deviceAttached = false) :
    s' = s ∧ (s.params.kbsrAddr - (a + 1#16)).toNat + 1 = (s.params.kbsrAddr - a).toNat := by
  cases hd : s.isDevice a with
  | true => rw [s.readCell_absent a hd ha] at h; cases h
  | false =>
    rw [s.readCell_plain a hd] at h
    refine ⟨by simpa using (congrArg (Option.map Prod.snd) h).symm, ?_⟩
    have hne : a ≠ s.params.kbsrAddr := by
      rintro rfl
      simp [State.isDevice, Params.deviceAddrs] at hd
    bv_omega

/-- With no device attached, a PUTS scan of as many reads as reach KBSR_ADDR is never suspended. -/
theorem putsScan_absent (n : Nat) (f a : Word) (s : State) (ha : s.params.deviceAttached = false)
    (hn : (s.params.kbsrAddr - a).toNat < n) : ∃ t, putsScan n f a s = .next t ∧ t.routine = s.routine := by
  induction n generalizing a s with
  | zero => omega
  | succ n ih =>
    unfold putsScan State.load
    split
    · rename_i c s' e
      obtain ⟨rfl, hd⟩ := s.readCell_distance s' a c e ha
      dsimp only
      split
      · exact ⟨_, rfl, rfl⟩
      · exact ih (a + 1#16) (s'.writeChar c) ha (show (s'.params.kbsrAddr - (a + 1#16)).toNat < n by omega)
    · exact ⟨_, rfl, rfl⟩

/-- The same of a PUTSP scan. -/
theorem putspScan_absent (n : Nat) (f a : Word) (s : State) (ha : s.params.deviceAttached = false)
    (hn : (s.params.kbsrAddr - a).toNat < n) : ∃ t, putspScan n f a s = .next t ∧ t.routine = s.routine := by
  induction n generalizing a s with
  | zero => omega
  | succ n ih =>
    unfold putspScan State.load
    split
    · rename_i c s' e
      obtain ⟨rfl, hd⟩ := s.readCell_distance s' a c e ha
      dsimp only
      split
      · exact ⟨_, rfl, rfl⟩
      · split
        · exact ⟨_, rfl, rfl⟩
        · exact ih (a + 1#16) ((s'.writeChar _).writeChar _) ha
            (show (s'.params.kbsrAddr - (a + 1#16)).toNat < n by omega)
    · exact ⟨_, rfl, rfl⟩

end Sys2Proof.Machine
end

