-- ==== Sys2Proof/Laws/Access.lean ====
section
/-! SUPPORT. The model's operations in the terms claims are written in (Sys2Proof/Safety.lean): what a data read, a data
write, a fetch and a register write do where an address is plain, a device's, or denied. -/

namespace Sys2Proof.Machine

theorem State.isDevice_iff (s : State) (a : Word) : s.isDevice a = true ↔ a ∈ s.params.deviceAddrs := by
  simp [State.isDevice]

theorem State.isDevice_false_iff (s : State) (a : Word) : s.isDevice a = false ↔ a ∉ s.params.deviceAddrs := by
  simp [State.isDevice]

/-- Reads is exactly a read that succeeds. -/
theorem reads_iff (s s' : State) (a v : Word) : Reads s a v s' ↔ s.readCell a = some (v, s') := by
  unfold Reads State.readCell
  rw [← State.isDevice_iff]
  cases s.isDevice a <;> cases s.params.deviceAttached <;>
    simp [State.deviceValue, State.drawn, eq_comm]

/-- Denied is exactly a read that raises UnimplementedDevice. -/
theorem denied_iff (s : State) (a : Word) : Denied s a ↔ s.readCell a = none := by
  rw [State.readCell_none, State.isDevice_iff, Denied]

/-- Every access is allowed or denied. -/
theorem reads_or_denied (s : State) (a : Word) : (∃ v s', Reads s a v s') ∨ Denied s a := by
  rw [denied_iff]
  cases h : s.readCell a with
  | none => exact .inr rfl
  | some p => exact .inl ⟨p.1, p.2, (reads_iff _ _ _ _).2 h⟩

/-- What MemRead may change: nothing but the count of draws. -/
theorem Reads.same {s s' : State} {a v : Word} (h : Reads s a v s') :
    s'.regs = s.regs ∧ s'.pc = s.pc ∧ s'.cc = s.cc ∧ s'.mem = s.mem ∧ s'.run = s.run ∧ s'.consoleIn = s.consoleIn ∧
      s'.consoleOut = s.consoleOut ∧ s'.deviceOut = s.deviceOut ∧ s'.params = s.params ∧ s'.routine = s.routine := by
  rcases h with ⟨-, -, rfl⟩ | ⟨-, -, -, rfl⟩ <;> simp

theorem load_of_reads {s s' : State} {a v : Word} (h : Reads s a v s') (op : Opcode) (f : Word)
    (k : Word → State → Result) : s.load op f a k = k v s' := by
  simp [State.load, (reads_iff _ _ _ _).1 h]

theorem load_of_denied {s : State} {a : Word} (h : Denied s a) (op : Opcode) (f : Word) (k : Word → State → Result) :
    s.load op f a k = .next (s.raise (.unimplementedDevice a .read (some (opcodeBits op))) f) := by
  simp [State.load, (denied_iff _ _).1 h]

theorem store_of_denied {s : State} {a : Word} (h : Denied s a) (op : Opcode) (f v : Word) :
    s.store op f a v = .next (s.raise (.unimplementedDevice a .write (some (opcodeBits op))) f) :=
  s.store_absent op f a v ((s.isDevice_iff a).2 h.1) h.2

/-- A read of the state after the PC increment is a read of the state before it. -/
theorem reads_advancePc {s s' : State} {a v : Word} (h : Reads s a v s') : Reads s.advancePc a v s'.advancePc := by
  rcases h with ⟨h1, h2, rfl⟩ | ⟨h1, h2, h3, rfl⟩
  · exact .inl ⟨h1, h2, rfl⟩
  · exact .inr ⟨h1, h2, h3, rfl⟩

/-- WriteReg after the PC increment, said field by field. -/
theorem writesReg_writeReg (s : State) (r : RegIdx) (v : Word) : WritesReg s (s.advancePc.writeReg r v) r v := by
  refine ⟨State.readReg_writeReg_same _ _ _, ?_, ?_, fun _ => rfl, rfl, rfl, rfl, rfl, rfl, rfl, rfl⟩
  · simp [CcShows, ccOf, ccZ, ccN, ccP]
  · intro q hq
    rw [State.readReg_writeReg_ne _ _ _ _ (by simpa using hq)]
    rfl

/-- The model's sign extension is the spec's (R8). -/
theorem sext16_eq_signed {n : Nat} (f : BitVec n) : sext16 f = signed f := rfl

end Sys2Proof.Machine
end

