-- ==== Sys2Proof/Laws/PerInstr.lean ====
section
/-! SUPPORT. Facts about every instruction as syntax, one lemma per constructor. EncodeAssembled: the word the encoder
gives is one the STRICT_DECODE check accepts (spec/30_encoding.md R65), since it holds the assembler's values in the
bits no handler reads. -/

namespace Sys2Proof.Laws.EncodeAssembled

def Statement (i : Instr) : Prop := assembledWord (encode i) = true

/-- The opcode of an instruction (R70). -/
def opcodeOfInstr : Instr → Opcode
  | .br _ _ => .br
  | .addReg _ _ _ => .add
  | .addImm _ _ _ => .add
  | .ld _ _ => .ld
  | .st _ _ => .st
  | .jsr _ => .jsr
  | .jsrr _ => .jsr
  | .andReg _ _ _ => .and
  | .andImm _ _ _ => .and
  | .ldr _ _ _ => .ldr
  | .str _ _ _ => .str
  | .rti => .rti
  | .notReg _ _ => .not
  | .ldi _ _ => .ldi
  | .sti _ _ => .sti
  | .jmp _ => .jmp
  | .res => .res
  | .lea _ _ => .lea
  | .trap _ => .trap

/-- The encoder writes the opcode into w[15:12] (R60, R70). -/
theorem encode_opcode (i : Instr) : (encode i).extractLsb' 12 4 = opcodeBits (opcodeOfInstr i) := by
  apply BitVec.eq_of_getElem_eq
  intro k hk
  cases i <;>
    simp only [BitVec.getElem_extractLsb', encode, BitVec.getLsbD_append, opcodeBits, opcodeOfInstr] <;>
    interval_cases k <;> simp

theorem br (a : BitVec 3) (b : BitVec 9) : Statement (.br a b) := by
  have ho := encode_opcode (.br a b)
  simp [Statement, assembledWord, unreadMask, unreadAssembled, ho, opcodeOfInstr, opcodeBits]

theorem addReg (a b c : RegIdx) : Statement (.addReg a b c) := by
  have ho := encode_opcode (.addReg a b c)
  have hm : (encode (.addReg a b c)).getLsbD 5 = false := by
    simp only [encode, BitVec.getLsbD_append, opcodeBits]; simp
  simp only [Statement, assembledWord, unreadMask, unreadAssembled, ho, opcodeOfInstr, opcodeBits, hm, beq_iff_eq]
  apply BitVec.eq_of_getLsbD_eq
  intro k hk
  simp only [BitVec.getLsbD_and, encode, BitVec.getLsbD_append, opcodeBits]
  interval_cases k <;> simp

theorem addImm (a b : RegIdx) (c : BitVec 5) : Statement (.addImm a b c) := by
  have ho := encode_opcode (.addImm a b c)
  have hm : (encode (.addImm a b c)).getLsbD 5 = true := by
    simp only [encode, BitVec.getLsbD_append, opcodeBits]; simp
  simp [Statement, assembledWord, unreadMask, unreadAssembled, ho, opcodeOfInstr, opcodeBits, hm]

theorem ld (a : RegIdx) (b : BitVec 9) : Statement (.ld a b) := by
  have ho := encode_opcode (.ld a b)
  simp [Statement, assembledWord, unreadMask, unreadAssembled, ho, opcodeOfInstr, opcodeBits]

theorem st (a : RegIdx) (b : BitVec 9) : Statement (.st a b) := by
  have ho := encode_opcode (.st a b)
  simp [Statement, assembledWord, unreadMask, unreadAssembled, ho, opcodeOfInstr, opcodeBits]

theorem jsr (a : BitVec 11) : Statement (.jsr a) := by
  have ho := encode_opcode (.jsr a)
  have hm : (encode (.jsr a)).getLsbD 11 = true := by
    simp only [encode, BitVec.getLsbD_append, opcodeBits]; simp
  simp [Statement, assembledWord, unreadMask, unreadAssembled, ho, opcodeOfInstr, opcodeBits, hm]

theorem jsrr (a : RegIdx) : Statement (.jsrr a) := by
  have ho := encode_opcode (.jsrr a)
  have hm : (encode (.jsrr a)).getLsbD 11 = false := by
    simp only [encode, BitVec.getLsbD_append, opcodeBits]; simp
  simp only [Statement, assembledWord, unreadMask, unreadAssembled, ho, opcodeOfInstr, opcodeBits, hm, beq_iff_eq]
  apply BitVec.eq_of_getLsbD_eq
  intro k hk
  simp only [BitVec.getLsbD_and, encode, BitVec.getLsbD_append, opcodeBits]
  interval_cases k <;> simp

theorem andReg (a b c : RegIdx) : Statement (.andReg a b c) := by
  have ho := encode_opcode (.andReg a b c)
  have hm : (encode (.andReg a b c)).getLsbD 5 = false := by
    simp only [encode, BitVec.getLsbD_append, opcodeBits]; simp
  simp only [Statement, assembledWord, unreadMask, unreadAssembled, ho, opcodeOfInstr, opcodeBits, hm, beq_iff_eq]
  apply BitVec.eq_of_getLsbD_eq
  intro k hk
  simp only [BitVec.getLsbD_and, encode, BitVec.getLsbD_append, opcodeBits]
  interval_cases k <;> simp

theorem andImm (a b : RegIdx) (c : BitVec 5) : Statement (.andImm a b c) := by
  have ho := encode_opcode (.andImm a b c)
  have hm : (encode (.andImm a b c)).getLsbD 5 = true := by
    simp only [encode, BitVec.getLsbD_append, opcodeBits]; simp
  simp [Statement, assembledWord, unreadMask, unreadAssembled, ho, opcodeOfInstr, opcodeBits, hm]

theorem ldr (a b : RegIdx) (c : BitVec 6) : Statement (.ldr a b c) := by
  have ho := encode_opcode (.ldr a b c)
  simp [Statement, assembledWord, unreadMask, unreadAssembled, ho, opcodeOfInstr, opcodeBits]

theorem str (a b : RegIdx) (c : BitVec 6) : Statement (.str a b c) := by
  have ho := encode_opcode (.str a b c)
  simp [Statement, assembledWord, unreadMask, unreadAssembled, ho, opcodeOfInstr, opcodeBits]

theorem rti : Statement .rti := by unfold Statement; decide

theorem notReg (a b : RegIdx) : Statement (.notReg a b) := by
  have ho := encode_opcode (.notReg a b)
  simp only [Statement, assembledWord, unreadMask, unreadAssembled, ho, opcodeOfInstr, opcodeBits, beq_iff_eq]
  apply BitVec.eq_of_getLsbD_eq
  intro k hk
  simp only [BitVec.getLsbD_and, encode, BitVec.getLsbD_append, opcodeBits]
  interval_cases k <;> simp

theorem ldi (a : RegIdx) (b : BitVec 9) : Statement (.ldi a b) := by
  have ho := encode_opcode (.ldi a b)
  simp [Statement, assembledWord, unreadMask, unreadAssembled, ho, opcodeOfInstr, opcodeBits]

theorem sti (a : RegIdx) (b : BitVec 9) : Statement (.sti a b) := by
  have ho := encode_opcode (.sti a b)
  simp [Statement, assembledWord, unreadMask, unreadAssembled, ho, opcodeOfInstr, opcodeBits]

theorem jmp (a : RegIdx) : Statement (.jmp a) := by
  have ho := encode_opcode (.jmp a)
  simp only [Statement, assembledWord, unreadMask, unreadAssembled, ho, opcodeOfInstr, opcodeBits, beq_iff_eq]
  apply BitVec.eq_of_getLsbD_eq
  intro k hk
  simp only [BitVec.getLsbD_and, encode, BitVec.getLsbD_append, opcodeBits]
  interval_cases k <;> simp

theorem res : Statement .res := by unfold Statement; decide

theorem lea (a : RegIdx) (b : BitVec 9) : Statement (.lea a b) := by
  have ho := encode_opcode (.lea a b)
  simp [Statement, assembledWord, unreadMask, unreadAssembled, ho, opcodeOfInstr, opcodeBits]

theorem trap (a : BitVec 8) : Statement (.trap a) := by
  have ho := encode_opcode (.trap a)
  simp only [Statement, assembledWord, unreadMask, unreadAssembled, ho, opcodeOfInstr, opcodeBits, beq_iff_eq]
  apply BitVec.eq_of_getLsbD_eq
  intro k hk
  simp only [BitVec.getLsbD_and, encode, BitVec.getLsbD_append, opcodeBits]
  interval_cases k <;> simp

end Sys2Proof.Laws.EncodeAssembled
end

