-- ==== Sys2Proof/Tests/Slice0.lean ====
section
/-! SUPPORT. Tests of single steps, with the expected results of spec/95_test_vectors.md (named beside each), the
refusals of the STRICT_DECODE check, and for every statement with hypotheses a witness that meets them. -/

namespace Sys2Proof.Tests

open Sys2Proof.Machine

/-- A state at `pc` with the listed memory and registers, all else as at reset. -/
def start (pc : Word) (m : Memory) (rs : List (RegIdx × Word)) : State :=
  rs.foldl (fun s p => { s with regs := s.regs.set p.1.toNat p.2 p.1.isLt }) { State.reset with pc := pc, mem := m }

/-- What `f` sees of the next state. -/
def after {α : Type} (r : Result) (f : State → α) : Option α :=
  match r with
  | .next t => some (f t)
  | .fault _ => none
  | .refused _ => none

/-! ### The STRICT_DECODE check: an ill-formed word for each format with unread bits (R61, R65) -/

theorem test_strict_refuses_add_reg_bits : wordWellFormed true 0x105A#16 = false := by decide   -- V-ADD-6
theorem test_strict_refuses_and_reg_bits : wordWellFormed true 0x548B#16 = false := by decide
theorem test_strict_refuses_jsrr_bits : wordWellFormed true 0x4081#16 = false := by decide
theorem test_strict_refuses_rti_bits : wordWellFormed true 0x8FFF#16 = false := by decide       -- V-RES-2's word
theorem test_strict_refuses_not_bits : wordWellFormed true 0x9040#16 = false := by decide       -- V-NOT-5's word
theorem test_strict_refuses_jmp_bits : wordWellFormed true 0xCFFF#16 = false := by decide       -- V-JMP-3's word
theorem test_strict_refuses_res_bits : wordWellFormed true 0xD001#16 = false := by decide
theorem test_strict_refuses_trap_bits : wordWellFormed true 0xFF25#16 = false := by decide      -- V-TRAP-13's word
theorem test_strict_accepts_assembled_words :
    [0x1042#16, 0x5483#16, 0x4080#16, 0x8000#16, 0x993F#16, 0xC1C0#16, 0xF025#16, 0x0FFF#16, 0x4FFF#16].all
      (wordWellFormed true) = true := by decide
theorem test_default_accepts_every_word : wordWellFormed false 0x105A#16 = true := by decide

/-! ### Decoding: for every constructor a word written out from R61 and R70, most significant bit first -/

theorem test_decode_br : decode 0b0000_010_111111011#16 = .br 0b010#3 0x1FB#9 := by decide          -- 0x05FB
theorem test_decode_add_reg : decode 0b0001_000_001_0_00_010#16 = .addReg 0#3 1#3 2#3 := by decide  -- 0x1042
theorem test_decode_add_imm : decode 0b0001_001_000_1_11101#16 = .addImm 1#3 0#3 0b11101#5 := by decide -- 0x123D, L1-4
theorem test_decode_ld : decode 0b0010_001_000000010#16 = .ld 1#3 2#9 := by decide                  -- 0x2202
theorem test_decode_st : decode 0b0011_001_000000010#16 = .st 1#3 2#9 := by decide                  -- 0x3202
theorem test_decode_jsr : decode 0b0100_1_10000000000#16 = .jsr 0x400#11 := by decide               -- 0x4C00
theorem test_decode_jsrr : decode 0b0100_0_00_010_000000#16 = .jsrr 2#3 := by decide                -- 0x4080
theorem test_decode_and_reg : decode 0b0101_010_010_0_00_011#16 = .andReg 2#3 2#3 3#3 := by decide  -- 0x5483
theorem test_decode_and_imm : decode 0b0101_000_001_1_10000#16 = .andImm 0#3 1#3 0b10000#5 := by decide -- 0x5070
theorem test_decode_ldr : decode 0b0110_000_001_111111#16 = .ldr 0#3 1#3 0x3F#6 := by decide        -- 0x607F
theorem test_decode_str : decode 0b0111_000_001_100000#16 = .str 0#3 1#3 0x20#6 := by decide        -- 0x7060
theorem test_decode_rti : decode 0b1000_000000000000#16 = .rti := by decide                         -- 0x8000
theorem test_decode_not : decode 0b1001_100_100_111111#16 = .notReg 4#3 4#3 := by decide            -- 0x993F
theorem test_decode_ldi : decode 0b1010_010_000000001#16 = .ldi 2#3 1#9 := by decide                -- 0xA401
theorem test_decode_sti : decode 0b1011_011_000000001#16 = .sti 3#3 1#9 := by decide                -- 0xB601
theorem test_decode_jmp : decode 0b1100_000_111_000000#16 = .jmp 7#3 := by decide                   -- 0xC1C0
theorem test_decode_res : decode 0b1101_000000000000#16 = .res := by decide                         -- 0xD000
theorem test_decode_lea : decode 0b1110_001_000000000#16 = .lea 1#3 0#9 := by decide                -- 0xE200
theorem test_decode_trap : decode 0b1111_0000_00100101#16 = .trap 0x25#8 := by decide               -- 0xF025
theorem test_encode_assembles_not : encode (.notReg 4#3 4#3) = 0x993F#16 := by decide
theorem test_table_word : decodeTableWord 16 0x123D = some (.addImm 1#3 0#3 0b11101#5) := by decide

/-! ### One step of each instruction -/

/-- V-ADD-1: signed overflow wraps. -/
theorem test_add_reg_wraps : after (step (start 0x3000 [(0x3000, 0x1042)] [(1, 0x7FFF), (2, 1)]))
    (fun t => (t.readReg 0, t.cc, t.pc)) = some (0x8000, 0b100, 0x3001) := by decide
/-- V-ADD-6: unread bits ignored. -/
theorem test_add_reg_unread_bits : after (step (start 0x3000 [(0x3000, 0x105A)] [(1, 1), (2, 2)]))
    (fun t => (t.readReg 0, t.cc)) = some (3, 0b001) := by decide
/-- L1-4. -/
theorem test_add_imm_negative : after (step (start 0x3000 [(0x3000, 0x123D)] [(0, 5)]))
    (fun t => (t.readReg 1, t.readReg 0, t.cc, t.pc)) = some (2, 5, 0b001, 0x3001) := by decide
/-- V-AND-1. -/
theorem test_and_reg_zero : after (step (start 0x3000 [(0x3000, 0x5483)] [(2, 0x00F0), (3, 0x0F0F)]))
    (fun t => (t.readReg 2, t.cc)) = some (0, 0b010) := by decide
/-- V-AND-4: the extension keeps the high bits. -/
theorem test_and_imm_extends : after (step (start 0x3000 [(0x3000, 0x5070)] [(1, 0x8000)]))
    (fun t => (t.readReg 0, t.cc)) = some (0x8000, 0b100) := by decide
/-- V-NOT-4. -/
theorem test_not_positive : after (step (start 0x3000 [(0x3000, 0x907F)] [(1, 0x8000)]))
    (fun t => (t.readReg 0, t.cc)) = some (0x7FFF, 0b001) := by decide
/-- V-BR-6: the target wraps downward. -/
theorem test_br_wraps : after (step { start 0x0000 [(0x0000, 0x0300)] [] with cc := 0b001 })
    (fun t => (t.pc, t.cc)) = some (0xFF01, 0b001) := by decide
/-- V-BR-3: no flag at reset, so not taken. -/
theorem test_br_not_taken_at_reset : after (step (start 0x3000 [(0x3000, 0x0E05)] []))
    (fun t => t.pc) = some 0x3001 := by decide
/-- V-JMP-3. -/
theorem test_jmp_unread_bits : after (step (start 0x3000 [(0x3000, 0xCFFF)] [(7, 0x0042)]))
    (fun t => (t.pc, t.cc)) = some (0x0042, 0b000) := by decide
/-- V-JSR-3: the return address wraps to zero. -/
theorem test_jsr_at_top : after (step (start 0xFFFF [(0xFFFF, 0x4BFF)] []))
    (fun t => (t.readReg 7, t.pc, t.cc)) = some (0x0000, 0x03FF, 0b010) := by decide
/-- V-JSRR-1. -/
theorem test_jsrr : after (step (start 0x3010 [(0x3010, 0x4080)] [(2, 0x4000)]))
    (fun t => (t.readReg 7, t.pc, t.cc)) = some (0x3011, 0x4000, 0b001) := by decide
/-- V-JSRR-2: BaseR is read after the R7 write. -/
theorem test_jsrr_r7 : after (step (start 0x3000 [(0x3000, 0x41C0)] [(7, 0x5000)]))
    (fun t => (t.readReg 7, t.pc)) = some (0x3001, 0x3001) := by decide
/-- V-LD-1. -/
theorem test_ld : after (step (start 0x3000 [(0x3000, 0x2202), (0x3003, 0x8001)] []))
    (fun t => (t.readReg 1, t.cc, t.pc)) = some (0x8001, 0b100, 0x3001) := by decide
/-- V-LDI-1. -/
theorem test_ldi : after (step (start 0x3000 [(0x3000, 0xA401), (0x3002, 0x4000)] [(2, 9)]))
    (fun t => (t.readReg 2, t.cc)) = some (0, 0b010) := by decide
/-- V-LDI-2: the second read faults; registers and CC keep their values. -/
theorem test_ldi_device : after (step (start 0x3000 [(0x3000, 0xA001), (0x3002, 0xFE00)] [(0, 9)]))
    (fun t => (t.run, t.pc, t.readReg 0, t.cc)) =
      some (.faulted ⟨.unimplementedDevice 0xFE00 .read (some 0xA), 0x3000⟩, 0x3001, 9, 0b000) := by decide
/-- V-LDR-2: the address wraps. -/
theorem test_ldr_wraps : after (step (start 0x3000 [(0x3000, 0x607F), (0xFFFF, 0x00AA)] []))
    (fun t => (t.readReg 0, t.cc)) = some (0x00AA, 0b001) := by decide
/-- V-LEA-4: a device address is harmless. -/
theorem test_lea_device_address : after (step (start 0xFDFF [(0xFDFF, 0xE000)] []))
    (fun t => (t.readReg 0, t.cc, t.run)) = some (0xFE00, 0b100, .running) := by decide
/-- V-ST-1. -/
theorem test_st : after (step (start 0x3000 [(0x3000, 0x3202)] [(1, 0x1234)]))
    (fun t => (t.mem.read 0x3003, t.cc)) = some (0x1234, 0b000) := by decide
/-- V-ST-2. -/
theorem test_st_device : after (step (start 0xFD00 [(0xFD00, 0x30FF)] [(0, 1)]))
    (fun t => (t.run, t.mem.read 0xFE00, t.pc)) =
      some (.faulted ⟨.unimplementedDevice 0xFE00 .write (some 0x3), 0xFD00⟩, 0, 0xFD01) := by decide
/-- V-STI-1. -/
theorem test_sti : after (step (start 0x3000 [(0x3000, 0xB601), (0x3002, 0x5000)] [(3, 0xBEEF)]))
    (fun t => t.mem.read 0x5000) = some 0xBEEF := by decide
/-- V-STR-2: SR is BaseR. -/
theorem test_str_same_register : after (step (start 0x3000 [(0x3000, 0x7240)] [(1, 0x6000)]))
    (fun t => t.mem.read 0x6000) = some 0x6000 := by decide
/-- V-STR-3: offset6 is sign-extended. -/
theorem test_str_negative_offset : after (step (start 0x3000 [(0x3000, 0x7060)] [(0, 9), (1, 0x6020)]))
    (fun t => t.mem.read 0x6000) = some 9 := by decide
/-- V-RES-1. -/
theorem test_rti : after (step (start 0x3000 [(0x3000, 0x8000)] []))
    (fun t => (t.run, t.pc, t.causeCode)) = some (.faulted ⟨.unimplementedOpcode 0x8, 0x3000⟩, 0x3001, 1) := by decide
/-- V-RES-3. -/
theorem test_res : after (step (start 0x4000 [(0x4000, 0xD000)] []))
    (fun t => (t.run, t.pc)) = some (.faulted ⟨.unimplementedOpcode 0xD, 0x4000⟩, 0x4001) := by decide
/-- V-FETCH-1: PC is not incremented. -/
theorem test_fetch_device : after (step (start 0xFE00 [] []))
    (fun t => (t.run, t.pc)) = some (.faulted ⟨.unimplementedDevice 0xFE00 .fetch none, 0xFE00⟩, 0xFE00) := by decide

/-! ### The trap routines -/

/-- V-TRAP-3: unmasked. -/
theorem test_getc : after (step { start 0x3000 [(0x3000, 0xF020)] [] with consoleIn := [0x8000, 1] })
    (fun t => (t.readReg 0, t.readReg 7, t.cc, t.consoleOut, t.consoleIn)) =
      some (0x8000, 0x3001, 0b100, [], [1]) := by decide
/-- V-TRAP-4: while the console does not answer, the engine is suspended inside the TRAP step, RUNNING, R7, CC and
PC(next) written (R32, R158). -/
theorem test_getc_waits (h : Config.consoleAnswer 0 = none) : after (step (start 0x3000 [(0x3000, 0xF020)] []))
    (fun t => (t.run, t.routine, t.readReg 7, t.cc, t.pc)) = some (.running, some .getc, 0x3001, 0b001, 0x3001) := by
  have e : step (start 0x3000 [(0x3000, 0xF020)] []) = _ :=
    (start 0x3000 [(0x3000, 0xF020)] []).advancePc.enterTrap.awaitChar_silent .getc
      (fun c s1 => .next (s1.writeReg 0#3 c)) rfl h
  rw [e]; decide
/-- V-TRAP-3's value when it comes after a wait: R7 stands, and the TRAP step is complete. -/
theorem test_getc_resumes :
    after (step { start 0x3001 [] [(7, 0x3001)] with routine := some .getc, consoleIn := [0x8000] })
    (fun t => (t.readReg 0, t.readReg 7, t.cc, t.pc, t.routine)) = some (0x8000, 0x3001, 0b100, 0x3001, none) := by decide
/-- V-TRAP-5. -/
theorem test_out : after (step (start 0x3000 [(0x3000, 0xF021)] [(0, 0x0048)]))
    (fun t => (t.consoleOut, t.readReg 0, t.cc, t.pc)) = some ([0x0048], 0x0048, 0b001, 0x3001) := by decide
/-- V-TRAP-8: the scan faults and what was written stays. -/
theorem test_puts_device : after (step (start 0x3000 [(0x3000, 0xF022), (0xFDFF, 0x41)] [(0, 0xFDFF)]))
    (fun t => (t.consoleOut, t.run)) =
      some ([0x41], .faulted ⟨.unimplementedDevice 0xFE00 .read (some 0xF), 0x3000⟩) := by decide
/-- R124: a scan that has made its reads goes on at the next address. -/
theorem test_puts_suspends :
    after (putsScan 1 0x3000 0x4000 (start 0x3001 [(0x4000, 0x48), (0x4001, 0x69)] [(0, 0x4000)]))
    (fun t => (t.consoleOut, t.run, t.routine)) = some ([0x48], .running, some (.puts 0x4001)) := by decide
/-- R124 and V-TRAP-8: a suspended scan that meets the device address faults with its TRAP's address. -/
theorem test_puts_resumes : after (step { start 0x3001 [(0xFDFF, 0x41)] [] with routine := some (.puts 0xFDFF) })
    (fun t => (t.consoleOut, t.run, t.pc, t.routine)) =
      some ([0x41], .faulted ⟨.unimplementedDevice 0xFE00 .read (some 0xF), 0x3000⟩, 0x3001, none) := by decide
/-- V-TRAP-9. -/
theorem test_in : after (step { start 0x3000 [(0x3000, 0xF023)] [] with consoleIn := [0x0079] })
    (fun t => (t.readReg 0, t.consoleOut, t.cc)) = some (0x0079, [0x0079], 0b001) := by decide
/-- R125: IN after its wait writes the echo and no second prompt. -/
theorem test_in_resumes : after (step { start 0x3001 [] [] with
      params := { Params.default with inPrompt := [0x3E] }, routine := some .inEcho, consoleIn := [0x0079] })
    (fun t => (t.readReg 0, t.consoleOut, t.cc, t.routine)) = some (0x0079, [0x0079], 0b001, none) := by decide
/-- V-TRAP-10. -/
theorem test_putsp : after (step (start 0x3000 [(0x3000, 0xF024), (0x4000, 0x6948), (0x4001, 0x0021)] [(0, 0x4000)]))
    (fun t => (t.consoleOut, t.run)) = some ([0x48, 0x69, 0x21], .running) := by decide
/-- L1-7. -/
theorem test_halt : after (step (start 0x3000 [(0x3000, 0xF025)] []))
    (fun t => (t.run, t.readReg 7, t.pc, t.cc, t.exitCode)) = some (.halted, 0x3001, 0x3001, 0b001, some 0) := by decide
/-- V-TRAP-14. -/
theorem test_unrecognized_vector : after (step (start 0x3000 [(0x3000, 0xF026)] []))
    (fun t => (t.run, t.readReg 7, t.cc)) =
      some (.faulted ⟨.unrecognizedTrapVector 0x26, 0x3000⟩, 0x3001, 0b001) := by decide

/-! ### The image -/

/-- V-IMG-1. -/
theorem test_image_loads : (loadImage [0x00, 0x30, 0x25, 0xF0] []).toOption = some [(0x3000, 0xF025)] := by decide
/-- V-IMG-4 and V-IMG-5. -/
theorem test_image_refused : (loadImage [0x00, 0x30, 0x25] []).toOption = none ∧
    (loadImage [0xFF, 0xFF, 0x01, 0x00, 0x02, 0x00] []).toOption = none := by decide
/-- V-IMG-7: written raw, even at a device address. -/
theorem test_image_device_address : (loadImage [0x00, 0xFE, 0x05, 0x00] []).toOption = some [(0xFE00, 5)] := by decide

/-! ### Witnesses: for each statement with hypotheses, a state and operands that meet them, clause by clause -/

/-- A state like `s` with a device attached. -/
def withDevice (s : State) : State := { s with params := { Params.default with deviceAttached := true } }

/-- A state like `s` with STRICT_DECODE = true. -/
def withStrict (s : State) : State := { s with params := { Params.default with strictDecode := true } }

/-- A plain cell is read. -/
theorem reads_plain (s : State) (a : Word) (h : a ∉ s.params.deviceAddrs) : Reads s a (s.mem.read a) s :=
  .inl ⟨h, rfl, rfl⟩

/-- A device cell is read when a device is attached. -/
theorem reads_device (s : State) (a : Word) (h : a ∈ s.params.deviceAddrs) (ha : s.params.deviceAttached = true) :
    Reads s a (Config.deviceValue s.draws a) { s with draws := s.draws + 1 } :=
  .inr ⟨h, ha, rfl, rfl⟩

/-- The opcode hypotheses of the decoding clauses, one word for each opcode (the mode bit of JSR and JSRR with it). -/
theorem witness_decode_clauses :
    (0x0FFF#16).extractLsb' 12 4 = 0x0#4 ∧ (0x1FFF#16).extractLsb' 12 4 = 0x1#4 ∧ (0x2000#16).extractLsb' 12 4 = 0x2#4 ∧
    (0x3000#16).extractLsb' 12 4 = 0x3#4 ∧ ((0x4800#16).extractLsb' 12 4 = 0x4#4 ∧ (0x4800#16).getLsbD 11 = true) ∧
    ((0x47FF#16).extractLsb' 12 4 = 0x4#4 ∧ (0x47FF#16).getLsbD 11 = false) ∧ (0x5000#16).extractLsb' 12 4 = 0x5#4 ∧
    (0x6FFF#16).extractLsb' 12 4 = 0x6#4 ∧ (0x7000#16).extractLsb' 12 4 = 0x7#4 ∧ (0x8FFF#16).extractLsb' 12 4 = 0x8#4 ∧
    (0x9000#16).extractLsb' 12 4 = 0x9#4 ∧ (0xA000#16).extractLsb' 12 4 = 0xA#4 ∧ (0xBFFF#16).extractLsb' 12 4 = 0xB#4 ∧
    (0xC1C0#16).extractLsb' 12 4 = 0xC#4 ∧ (0xD000#16).extractLsb' 12 4 = 0xD#4 ∧ (0xE000#16).extractLsb' 12 4 = 0xE#4 ∧
    (0xFFFF#16).extractLsb' 12 4 = 0xF#4 := by decide

theorem witness_subtraction : (0#3 : RegIdx) ≠ 7#3 := by decide

theorem witness_ret :
    (∃ t, exec (.jsr 0x400#11) State.reset = .next t ∧ t.readReg 7#3 = 0x3001#16) ∧
    (∃ t, exec (.jsrr 7#3) State.reset = .next t ∧ t.readReg 7#3 = 0x3001#16) ∧
    (∃ t, exec (.trap 0x21#8) State.reset = .next t ∧ t.readReg 7#3 = 0x3001#16) :=
  ⟨⟨_, rfl, by decide⟩, ⟨_, rfl, by decide⟩, ⟨_, rfl, by decide⟩⟩

/-- LD: a plain cell beside the device address, a device read, and a denied read. -/
theorem witness_ld :
    Reads (start 0xFD00 [] []) (0xFD00#16 + 1#16 + signed 0xFE#9) 0x0000#16 (start 0xFD00 [] []) ∧
    Reads (withDevice (start 0xFD00 [] [])) (0xFD00#16 + 1#16 + signed 0xFF#9) (Config.deviceValue 0 0xFE00#16)
      { withDevice (start 0xFD00 [] []) with draws := 1 } ∧
    Denied (start 0xFD00 [] []) (0xFD00#16 + 1#16 + signed 0xFF#9) :=
  ⟨reads_plain _ _ (by decide), reads_device _ _ (by decide) rfl, by decide, rfl⟩

/-- LDI: both reads plain, the pointer cell denied, and the pointed-to cell denied. -/
theorem witness_ldi :
    (Reads (start 0x3000 [(0x3002, 0x4000)] []) (0x3000#16 + 1#16 + signed 1#9) 0x4000#16 (start 0x3000 [(0x3002, 0x4000)] []) ∧
      Reads (start 0x3000 [(0x3002, 0x4000)] []) 0x4000#16 0x0000#16 (start 0x3000 [(0x3002, 0x4000)] [])) ∧
    Denied (start 0xFD00 [] []) (0xFD00#16 + 1#16 + signed 0xFF#9) ∧
    (Reads (start 0x3000 [(0x3002, 0xFE00)] []) (0x3000#16 + 1#16 + signed 1#9) 0xFE00#16 (start 0x3000 [(0x3002, 0xFE00)] []) ∧
      Denied (start 0x3000 [(0x3002, 0xFE00)] []) 0xFE00#16) :=
  ⟨⟨reads_plain _ _ (by decide), reads_plain _ _ (by decide)⟩, ⟨by decide, rfl⟩, reads_plain _ _ (by decide), by decide, rfl⟩

/-- LDR: a base that wraps to the last cell, and a denied read. -/
theorem witness_ldr :
    Reads (start 0x3000 [(0xFFFF, 0x00AA)] []) ((start 0x3000 [(0xFFFF, 0x00AA)] []).readReg 1#3 + signed 0x3F#6) 0x00AA#16
      (start 0x3000 [(0xFFFF, 0x00AA)] []) ∧
    Denied (start 0x3000 [] [(1, 0xFE00)]) ((start 0x3000 [] [(1, 0xFE00)]).readReg 1#3 + signed 0#6) :=
  ⟨reads_plain _ _ (by decide), by decide, rfl⟩

/-- ST: a plain cell, a device cell with a device attached, and a denied write. -/
theorem witness_st :
    ¬ Denied (start 0xFD00 [] []) (0xFD00#16 + 1#16 + signed 0xFE#9) ∧
    ¬ Denied (withDevice (start 0xFD00 [] [])) (0xFD00#16 + 1#16 + signed 0xFF#9) ∧
    Denied (start 0xFD00 [] []) (0xFD00#16 + 1#16 + signed 0xFF#9) :=
  ⟨fun h => absurd h.1 (by decide), fun h => absurd h.2 (by decide), by decide, rfl⟩

/-- STI: a plain target, a denied pointer cell, and a denied target. -/
theorem witness_sti :
    (Reads (start 0x3000 [(0x3002, 0x5000)] []) (0x3000#16 + 1#16 + signed 1#9) 0x5000#16 (start 0x3000 [(0x3002, 0x5000)] []) ∧
      ¬ Denied (start 0x3000 [(0x3002, 0x5000)] []) 0x5000#16) ∧
    Denied (start 0xFD00 [] []) (0xFD00#16 + 1#16 + signed 0xFF#9) ∧
    (Reads (start 0x3000 [(0x3002, 0xFE00)] []) (0x3000#16 + 1#16 + signed 1#9) 0xFE00#16 (start 0x3000 [(0x3002, 0xFE00)] []) ∧
      Denied (start 0x3000 [(0x3002, 0xFE00)] []) 0xFE00#16) :=
  ⟨⟨reads_plain _ _ (by decide), fun h => absurd h.1 (by decide)⟩, ⟨by decide, rfl⟩, reads_plain _ _ (by decide), by decide, rfl⟩

/-- STR: a negative offset to a plain cell, and a denied write. -/
theorem witness_str :
    ¬ Denied (start 0x3000 [] [(1, 0x6020)]) ((start 0x3000 [] [(1, 0x6020)]).readReg 1#3 + signed 0x20#6) ∧
    Denied (start 0x3000 [] [(1, 0xFE20)]) ((start 0x3000 [] [(1, 0xFE20)]).readReg 1#3 + signed 0x20#6) :=
  ⟨fun h => absurd h.1 (by decide), by decide, rfl⟩

/-- The store's next state is itself a machine about to fetch the stored cell, for ST, STR and STI. -/
theorem witness_store_seen :
    (∃ t, exec (.st 1#3 0x1FF#9) (start 0x3000 [] [(1, 0x1261)]) = .next t ∧ t.mem.read 0x3000#16 = 0x1261#16 ∧
      { t with pc := 0x3000#16 }.run = .running ∧ t.routine = none) ∧
    (∃ t, exec (.str 1#3 2#3 0#6) (start 0x3000 [] [(1, 0x1261), (2, 0x3002)]) = .next t ∧
      t.mem.read 0x3002#16 = 0x1261#16) ∧
    (∃ t, exec (.sti 1#3 1#9) (start 0x3000 [(0x3002, 0x3001)] [(1, 0x1261)]) = .next t ∧
      t.mem.read 0x3001#16 = 0x1261#16) ∧
    Reads (start 0x3000 [(0x3002, 0x3001)] [(1, 0x1261)]) (0x3000#16 + 1#16 + signed 1#9) 0x3001#16
      (start 0x3000 [(0x3002, 0x3001)] [(1, 0x1261)]) ∧
    (start 0x3000 [(0x3002, 0x3001)] []).mem.wf = true ∧ (start 0x3000 [] []).params.strictDecode = false :=
  ⟨⟨_, rfl, by decide, rfl, rfl⟩, ⟨_, rfl, by decide⟩, ⟨_, rfl, by decide⟩, reads_plain _ _ (by decide), by decide, rfl⟩

theorem witness_unrecognized_vector :
    ((0x1F#8).toNat < 0x20 ∨ 0x25 < (0x1F#8).toNat) ∧ ((0x26#8).toNat < 0x20 ∨ 0x25 < (0x26#8).toNat) := by decide

/-- GETC and IN: a value ready at the console, and none. -/
theorem witness_console : { State.reset with consoleIn := [0x8000#16] }.consoleIn = 0x8000#16 :: [] ∧
    State.reset.consoleIn = [] := ⟨rfl, rfl⟩

/-- A scan over plain cells, one cell at a time. -/
theorem readsAll_cons {s : State} {a v : Word} {vs : List Word} (h : a ∉ s.params.deviceAddrs) (hv : s.mem.read a = v)
    (hs : ReadsAll s (a + 1#16) vs s) : ReadsAll s a (v :: vs) s := ⟨s, .inl ⟨h, hv.symm, rfl⟩, hs⟩

/-- PUTS: a string that ends. -/
theorem witness_puts : (∀ c ∈ [0x0048#16, 0x0069#16], c ≠ 0x0000#16) ∧ [0x0048#16, 0x0069#16].length < 65536 ∧
    (start 0x3000 [(0x4000, 0x48), (0x4001, 0x69)] [(0, 0x4000)]).readReg 0#3 = 0x4000#16 ∧
    ReadsAll (start 0x3000 [(0x4000, 0x48), (0x4001, 0x69)] [(0, 0x4000)]) 0x4000#16 ([0x0048#16, 0x0069#16] ++ [0x0000#16])
      (start 0x3000 [(0x4000, 0x48), (0x4001, 0x69)] [(0, 0x4000)]) :=
  ⟨by simp, by decide, by decide, readsAll_cons (by decide) (by decide) (readsAll_cons (by decide) (by decide)
    (readsAll_cons (by decide) (by decide) rfl))⟩

/-- PUTS: the empty string. -/
theorem witness_puts_empty : ReadsAll State.reset 0x0000#16 ([] ++ [0x0000#16]) State.reset :=
  readsAll_cons (by decide) (by decide) rfl

/-- PUTS: a scan that meets the device address. -/
theorem witness_puts_denied : (start 0x3000 [(0xFDFF, 0x41)] [(0, 0xFDFF)]).readReg 0#3 = 0xFDFF#16 ∧
    ReadsAll (start 0x3000 [(0xFDFF, 0x41)] [(0, 0xFDFF)]) 0xFDFF#16 [0x0041#16] (start 0x3000 [(0xFDFF, 0x41)] [(0, 0xFDFF)]) ∧
    Denied (start 0x3000 [(0xFDFF, 0x41)] [(0, 0xFDFF)]) (0xFDFF#16 + BitVec.ofNat 16 [0x0041#16].length) :=
  ⟨by decide, readsAll_cons (by decide) (by decide) rfl, by decide, by decide⟩

/-- PUTSP: a terminator in the high byte. -/
theorem witness_putsp : (∀ w ∈ [0x6948#16], w.toNat % 256 ≠ 0 ∧ w.toNat / 256 ≠ 0) ∧ (0x0021#16).toNat / 256 = 0 ∧
    (start 0x3000 [(0x4000, 0x6948), (0x4001, 0x0021)] [(0, 0x4000)]).readReg 0#3 = 0x4000#16 ∧
    ReadsAll (start 0x3000 [(0x4000, 0x6948), (0x4001, 0x0021)] [(0, 0x4000)]) 0x4000#16 ([0x6948#16] ++ [0x0021#16])
      (start 0x3000 [(0x4000, 0x6948), (0x4001, 0x0021)] [(0, 0x4000)]) :=
  ⟨by simp, by decide, by decide, readsAll_cons (by decide) (by decide) (readsAll_cons (by decide) (by decide) rfl)⟩

/-- PUTSP: a terminator in the low byte, the high byte not zero. -/
theorem witness_putsp_low : (0x2100#16).toNat % 256 = 0 ∧
    ReadsAll (start 0x3000 [(0x4000, 0x2100)] [(0, 0x4000)]) 0x4000#16 ([] ++ [0x2100#16])
      (start 0x3000 [(0x4000, 0x2100)] [(0, 0x4000)]) :=
  ⟨by decide, readsAll_cons (by decide) (by decide) rfl⟩

/-- PUTSP: a scan that meets the device address. -/
theorem witness_putsp_denied : ((0x4141#16).toNat % 256 ≠ 0 ∧ (0x4141#16).toNat / 256 ≠ 0) ∧
    ReadsAll (start 0x3000 [(0xFDFF, 0x4141)] [(0, 0xFDFF)]) 0xFDFF#16 [0x4141#16]
      (start 0x3000 [(0xFDFF, 0x4141)] [(0, 0xFDFF)]) ∧
    Denied (start 0x3000 [(0xFDFF, 0x4141)] [(0, 0xFDFF)]) (0xFDFF#16 + BitVec.ofNat 16 [0x4141#16].length) :=
  ⟨by decide, readsAll_cons (by decide) (by decide) rfl, by decide, by decide⟩

/-- TRAP's frame: a routine that answers, and one that is not GETC or IN. -/
theorem witness_trap_frame :
    (∃ t, exec (.trap 0x20#8) { State.reset with consoleIn := [0x41#16] } = .next t) ∧
    (∃ t, exec (.trap 0x22#8) State.reset = .next t) ∧ (0x22#8 ≠ 0x20#8 ∧ 0x22#8 ≠ 0x23#8) :=
  ⟨⟨_, rfl⟩, ⟨_, rfl⟩, by decide⟩

/-- loadImage: too short, odd, not fitting, and fitting up to the last cell. -/
theorem witness_load_image :
    (([0x00#8] : List Byte).length < 2 ∧ ([0x00#8, 0x30#8, 0x25#8] : List Byte).length % 2 = 1) ∧
    (([0x01#8, 0x00#8, 0x02#8, 0x00#8] : List Byte).length % 2 = 0 ∧ (0xFF#8).toNat + 256 * (0xFF#8).toNat + 4 / 2 > 65536) ∧
    (([0x01#8, 0x00#8] : List Byte).length % 2 = 0 ∧ (0xFF#8).toNat + 256 * (0xFF#8).toNat + 2 / 2 ≤ 65536 ∧
      Memory.wf [] = true ∧ ([0x01#8, 0x00#8] : List Byte)[2 * 0]? = some 0x01#8 ∧
      ([0x01#8, 0x00#8] : List Byte)[2 * 0 + 1]? = some 0x00#8 ∧
      (0xFFFE#16).toNat < (0xFF#8).toNat + 256 * (0xFF#8).toNat) := by decide

/-- STRICT_DECODE and the unread bits: two words that differ in unread bits; a refused and an accepted word fetched with
STRICT_DECODE = true; the default. -/
theorem witness_unread_bits :
    (0x1042#16 &&& ~~~ unreadMask 0x1042#16 = 0x105A#16 &&& ~~~ unreadMask 0x1042#16) ∧
    (Reads (withStrict (start 0x3000 [(0x3000, 0x105A)] [])) 0x3000#16 0x105A#16 (withStrict (start 0x3000 [(0x3000, 0x105A)] [])) ∧
      assembledWord 0x105A#16 = false) ∧
    (Reads (withStrict (start 0x3000 [(0x3000, 0x1042)] [])) 0x3000#16 0x1042#16 (withStrict (start 0x3000 [(0x3000, 0x1042)] [])) ∧
      assembledWord 0x1042#16 = true) ∧
    (withStrict State.reset).run = .running ∧ (withStrict State.reset).routine = none ∧ (withStrict State.reset).params.strictDecode = true ∧
    State.reset.params.strictDecode = false :=
  ⟨by decide, ⟨reads_plain _ _ (by decide), by decide⟩, ⟨reads_plain _ _ (by decide), by decide⟩, rfl, rfl, rfl, rfl⟩

theorem witness_no_op_words : (0x0000#16).toNat < 0x200 ∧ (0x01FF#16).toNat < 0x200 := by decide

theorem witness_extension_widths : (0 < 1 ∧ 1 ≤ 16) ∧ (0 < 16 ∧ 16 ≤ 16) ∧ 15 < 16 := by decide

/-- The step: a plain fetch, a device fetch, and a denied fetch, all in RUNNING. -/
theorem witness_step :
    (State.reset.run = .running ∧ State.reset.routine = none ∧ Reads State.reset State.reset.pc 0x0000#16 State.reset ∧
      wordWellFormed State.reset.params.strictDecode 0x0000#16 = true) ∧
    (Reads (withDevice (start 0xFE00 [] [])) 0xFE00#16 (Config.deviceValue 0 0xFE00#16)
        { withDevice (start 0xFE00 [] []) with draws := 1 } ∧
      wordWellFormed (withDevice (start 0xFE00 [] [])).params.strictDecode (Config.deviceValue 0 0xFE00#16) = true) ∧
    ((start 0xFE00 [] []).run = .running ∧ (start 0xFE00 [] []).routine = none ∧ Denied (start 0xFE00 [] []) (start 0xFE00 [] []).pc) :=
  ⟨⟨rfl, rfl, reads_plain _ _ (by decide), by decide⟩, ⟨reads_device _ _ (by decide) rfl, rfl⟩, rfl, rfl, by decide, rfl⟩

theorem witness_placed_word : State.reset.run = .running ∧ State.reset.pc ∉ State.reset.params.deviceAddrs ∧
    State.reset.params.strictDecode = false ∧ State.reset.mem.wf = true ∧ 0xFFFF < 65536 := by decide

theorem witness_no_step : State.reset.halt.run = .halted ∧
    (State.reset.raise (.unimplementedOpcode 0x8#4) 0x3000#16).run = .faulted ⟨.unimplementedOpcode 0x8#4, 0x3000#16⟩ ∧
    ∃ t, step State.reset = .next t := ⟨rfl, rfl, _, rfl⟩

theorem witness_halted : ∃ t, step (start 0x3000 [(0x3000, 0xF025)] []) = .next t ∧ t.run = .halted := ⟨_, rfl, rfl⟩

/-- Every cause of a fault is reached by a step: the fetch, RTI, RES, the vector, a read, a scan, a write and a scan
taken up again. -/
theorem witness_faulted :
    (∃ t, step (start 0xFE00 [] []) = .next t ∧ t.causeCode = 2) ∧
    (∃ t, step (start 0x3000 [(0x3000, 0x8000)] []) = .next t ∧ t.causeCode = 1) ∧
    (∃ t, step (start 0x3000 [(0x3000, 0xD000)] []) = .next t ∧ t.causeCode = 1) ∧
    (∃ t, step (start 0x3000 [(0x3000, 0xF026)] []) = .next t ∧ t.causeCode = 3) ∧
    (∃ t, step (start 0xFD00 [(0xFD00, 0x20FF)] []) = .next t ∧ t.causeCode = 2) ∧
    (∃ t, step (start 0x3000 [(0x3000, 0xF022)] [(0, 0xFE00)]) = .next t ∧ t.causeCode = 2) ∧
    (∃ t, step (start 0xFD00 [(0xFD00, 0x30FF)] []) = .next t ∧ t.causeCode = 2) ∧
    (∃ t, step { start 0x3001 [] [] with routine := some (.puts 0xFE00) } = .next t ∧ t.causeCode = 2) :=
  ⟨⟨_, rfl, rfl⟩, ⟨_, rfl, rfl⟩, ⟨_, rfl, rfl⟩, ⟨_, rfl, rfl⟩, ⟨_, rfl, rfl⟩, ⟨_, rfl, rfl⟩, ⟨_, rfl, rfl⟩, ⟨_, rfl, rfl⟩⟩

/-- A machine suspended in each trap routine, with a value ready at the console and with none. -/
theorem witness_suspended :
    ({ State.reset with routine := some .getc }.run = .running ∧ { State.reset with routine := some .getc }.consoleIn = [] ∧
      { State.reset with routine := some .getc, consoleIn := [0x41#16] }.consoleIn = 0x41#16 :: []) ∧
    ({ State.reset with routine := some .inEcho }.run = .running ∧
      { State.reset with routine := some .inEcho }.consoleIn = [] ∧
      { State.reset with routine := some .inEcho, consoleIn := [0x41#16] }.consoleIn = 0x41#16 :: []) ∧
    { State.reset with routine := some (.puts 0x4000#16) }.run = .running ∧
    { State.reset with routine := some (.putsp 0x4000#16) }.run = .running := by decide

/-- A suspended machine that meets the invariant, a scan's with a device attached, takes a step. -/
theorem witness_suspended_invariant :
    ({ withDevice (start 0x3001 [] [(7, 0x3001)]) with cc := 0b001#3, routine := some (.puts 0x4000#16) }).routineLegal =
      true ∧
    ∃ t, step { withDevice (start 0x3001 [] [(7, 0x3001)]) with cc := 0b001#3, routine := some (.puts 0x4000#16) } =
      .next t := ⟨by decide, _, rfl⟩

/-- R32: a host sees the wait in readChar, and nothing inside a scan. -/
theorem test_host_view :
    ({ State.reset with routine := some .getc }.hostView.map fun (v : HostView) => (v.waiting, v.run)) = some (true, .running) ∧
    { State.reset with routine := some (.puts 0x4000#16) }.hostView = none := by decide

/-- What a host can see: a state inside a scan, one that shows a wait, one between steps; and steps it sees the end of. -/
theorem witness_host_view :
    { State.reset with routine := some (.puts 0x4000#16) }.hostView = none ∧
    (∃ v, { State.reset with routine := some .inEcho }.hostView = some v ∧ v.waiting = true) ∧
    (∃ v, State.reset.hostView = some v ∧ v.waiting = false) ∧
    (∃ t, HostStep State.reset t) ∧ State.reset.run = .running ∧ State.reset.params.deviceAttached = false ∧
    State.reset.params.strictDecode = false :=
  ⟨rfl, ⟨_, rfl, rfl⟩, ⟨_, rfl, rfl⟩, ⟨_, .seen rfl rfl⟩, rfl, rfl, rfl⟩

/-- A machine about to run PUTS over a string. -/
theorem witness_puts_host_step :
    (start 0x3000 [(0x3000, 0xF022), (0x4000, 0x48)] [(0, 0x4000)]).routine = none ∧
    Reads (start 0x3000 [(0x3000, 0xF022), (0x4000, 0x48)] [(0, 0x4000)]) 0x3000#16 0xF022#16
      (start 0x3000 [(0x3000, 0xF022), (0x4000, 0x48)] [(0, 0x4000)]) ∧
    decode 0xF022#16 = .trap 0x22#8 ∧ wordWellFormed false 0xF022#16 = true ∧
    ReadsAll (start 0x3000 [(0x3000, 0xF022), (0x4000, 0x48)] [(0, 0x4000)]) 0x4000#16 ([0x0048#16] ++ [0x0000#16])
      (start 0x3000 [(0x3000, 0xF022), (0x4000, 0x48)] [(0, 0x4000)]) :=
  ⟨rfl, .inl ⟨by decide, by decide, rfl⟩, by decide, by decide,
    readsAll_cons (by decide) (by decide) (readsAll_cons (by decide) (by decide) rfl)⟩

/-- A machine about to run PUTSP over a string. -/
theorem witness_putsp_host_step :
    (start 0x3000 [(0x3000, 0xF024), (0x4000, 0x6948)] [(0, 0x4000)]).routine = none ∧
    Reads (start 0x3000 [(0x3000, 0xF024), (0x4000, 0x6948)] [(0, 0x4000)]) 0x3000#16 0xF024#16
      (start 0x3000 [(0x3000, 0xF024), (0x4000, 0x6948)] [(0, 0x4000)]) ∧
    decode 0xF024#16 = .trap 0x24#8 ∧ wordWellFormed false 0xF024#16 = true ∧
    (∀ x ∈ [0x6948#16], x.toNat % 256 ≠ 0 ∧ x.toNat / 256 ≠ 0) ∧
    ReadsAll (start 0x3000 [(0x3000, 0xF024), (0x4000, 0x6948)] [(0, 0x4000)]) 0x4000#16 ([0x6948#16] ++ [0x0000#16])
      (start 0x3000 [(0x3000, 0xF024), (0x4000, 0x6948)] [(0, 0x4000)]) :=
  ⟨rfl, .inl ⟨by decide, by decide, rfl⟩, by decide, by decide, by simp,
    readsAll_cons (by decide) (by decide) (readsAll_cons (by decide) (by decide) rfl)⟩

/-- A state that meets the invariant and takes a step (for every statement about a step's next state). -/
theorem witness_step_from_invariant :
    (start 0x3000 [(0x3000, 0x3202)] [(1, 0x1234)]).mem.wf = true ∧
    ccLegal (start 0x3000 [(0x3000, 0x3202)] [(1, 0x1234)]).cc = true ∧
    (start 0x3000 [(0x3000, 0x3202)] [(1, 0x1234)]).routineLegal = true ∧
    ∃ t, step (start 0x3000 [(0x3000, 0x3202)] [(1, 0x1234)]) = .next t := ⟨by decide, by decide, by decide, _, rfl⟩

theorem witness_session_start : Params.default.wf = true ∧ Memory.wf [] = true ∧
    ∃ s, State.boot Params.default [] [0x00#8, 0x30#8, 0x25#8, 0xF0#8] = .ok s := ⟨by decide, by decide, _, rfl⟩

theorem witness_cc_read_by_br_only : ∀ nzp off, Instr.trap 0x22#8 ≠ .br nzp off := by simp

/-- Each kind of instruction that writes no CC answers a next state. -/
theorem witness_cc_not_written :
    (∃ t, exec (.br 7#3 0#9) State.reset = .next t) ∧ (∃ t, exec (.jmp 7#3) State.reset = .next t) ∧
    (∃ t, exec (.st 0#3 0#9) State.reset = .next t) ∧ (∃ t, exec (.sti 0#3 0#9) State.reset = .next t) ∧
    (∃ t, exec (.str 0#3 0#3 0#6) State.reset = .next t) ∧ (∃ t, exec .rti State.reset = .next t) ∧
    ∃ t, exec .res State.reset = .next t :=
  ⟨⟨_, rfl⟩, ⟨_, rfl⟩, ⟨_, rfl⟩, ⟨_, rfl⟩, ⟨_, rfl⟩, ⟨_, rfl⟩, _, rfl⟩

theorem witness_no_store : (∀ sr off, Instr.ld 0#3 0#9 ≠ .st sr off) ∧ (∀ sr off, Instr.ld 0#3 0#9 ≠ .sti sr off) ∧
    (∀ sr base off, Instr.ld 0#3 0#9 ≠ .str sr base off) ∧ ∃ t, exec (.ld 0#3 0#9) State.reset = .next t :=
  ⟨by simp, by simp, by simp, _, rfl⟩

/-- Progress: a value ready for GETC and IN, and an instruction that needs none. -/
theorem witness_progress : State.reset.params.deviceAttached = false ∧ State.reset.params.strictDecode = false ∧
    State.reset.run = .running ∧ { State.reset with consoleIn := [0x41#16] }.consoleIn ≠ [] ∧
    (Instr.trap 0x22#8 ≠ .trap 0x20#8 ∧ Instr.trap 0x22#8 ≠ .trap 0x23#8) := by decide

theorem witness_exit_code : State.reset.params.wf = true := by decide

theorem witness_str_ldr : (start 0x3000 [] [(1, 0x3001)]).readReg 1#3 + signed 0#6 ∉
    (start 0x3000 [] [(1, 0x3001)]).params.deviceAddrs ∧ (start 0x3000 [] [(1, 0x3001)]).mem.wf = true := by decide

end Sys2Proof.Tests
end

section
/-! SUPPORT. The statements of spec/00_scope.md: fields and extensions (R7, R8), the exit outcome (R13), and what every
step does at the ports and to the parameters (R6, R14, R47). -/

namespace Sys2Proof.Machine

/-! ### Fields and extensions -/

/-- `w[lo + width - 1 : lo]` as division and remainder (R7). -/
theorem field_toNat (w : Word) (lo width : Nat) : (field w lo width).toNat = w.toNat / 2 ^ lo % 2 ^ width := by
  rw [field, BitVec.extractLsb'_toNat, Nat.shiftRight_eq_div_pow]

/-- The bits of a sign-extended field: its own, and above them its top bit (R8). -/
theorem sext16_getLsbD {n : Nat} (f : BitVec n) {k : Nat} (hk : k < 16) :
    (sext16 f).getLsbD k = if k < n then f.getLsbD k else f.getLsbD (n - 1) := by
  simp only [sext16, BitVec.getLsbD_signExtend, BitVec.msb_eq_getLsbD_last, hk, decide_true, Bool.true_and]

theorem sext16_toInt {n : Nat} (f : BitVec n) (hn : n ≤ 16) : (sext16 f).toInt = f.toInt :=
  BitVec.toInt_signExtend_of_le hn

theorem zext16_toNat {n : Nat} (f : BitVec n) (hn : n ≤ 16) : (zext16 f).toNat = f.toNat :=
  BitVec.toNat_setWidth_of_le hn

/-- Settles O37: a field is a shift and a mask, and a width of at most 16 bits loses nothing in either extension. -/
theorem fieldsAreMaskedAndExtended : Obligations.FieldsAreMaskedAndExtended :=
  ⟨field_toNat, fun _ f _ hn => ⟨fun _ => sext16_getLsbD f, sext16_toInt f hn, zext16_toNat f hn⟩⟩

/-! ### The exit outcome -/

/-- Legal parameters have a non-zero EXIT_FATAL (D24). -/
theorem exitFatal_ne_zero_of_wf {p : Params} (h : p.wf = true) : p.exitFatal ≠ 0 := by
  simp only [Params.wf, Bool.and_eq_true, bne_iff_ne] at h
  exact h.2

theorem State.exitCode_running {s : State} (h : s.run = .running) : s.exitCode = none := by simp [State.exitCode, h]

theorem State.exitCode_halted {s : State} (h : s.run = .halted) : s.exitCode = some 0 := by simp [State.exitCode, h]

theorem State.exitCode_faulted {s : State} {r : FaultRecord} (h : s.run = .faulted r) :
    s.exitCode = some s.params.exitFatal := by simp [State.exitCode, h]

/-- There is a fault record in FAULTED and only there (R152). -/
theorem State.faultRecord_eq_some {s : State} {r : FaultRecord} : s.faultRecord = some r ↔ s.run = .faulted r := by
  cases h : s.run <;> simp [State.faultRecord, h]

/-- Settles O53: one case for each run state; in FAULTED the outcome is EXIT_FATAL, which legal parameters have
non-zero. -/
theorem exitCodeTellsHaltFromFault : Obligations.ExitCodeTellsHaltFromFault := by
  intro s hwf
  simp only [State.faultRecord_eq_some]
  cases h : s.run with
  | running => simp [State.exitCode_running h]
  | halted => simp [State.exitCode_halted h]
  | faulted r => simp [State.exitCode_faulted h, exitFatal_ne_zero_of_wf hwf]

/-! ### The ports and the parameters -/

/-- From s to t the values `taken` were read off the ready inputs, oldest first; output was appended only; the draws
were counted up only; the parameters stand. -/
structure PortsGrow (taken : List Word) (s t : State) : Prop where
  consoleIn : s.consoleIn = taken ++ t.consoleIn
  consoleOut : s.consoleOut <+: t.consoleOut
  deviceOut : s.deviceOut <+: t.deviceOut
  draws : s.draws ≤ t.draws
  params : t.params = s.params

/-- What a step may do at the ports: as PortsGrow says, with at most one ready input taken. -/
def TakesAtMostOne (s t : State) : Prop := ∃ taken : List Word, taken.length ≤ 1 ∧ PortsGrow taken s t

theorem PortsGrow.takesAtMostOne {s t : State} (h : PortsGrow [] s t) : TakesAtMostOne s t := ⟨[], by simp, h⟩

theorem PortsGrow.trans {a b : List Word} {s u t : State} (h : PortsGrow a s u) (h' : PortsGrow b u t) :
    PortsGrow (a ++ b) s t where
  consoleIn := by rw [h.consoleIn, h'.consoleIn, List.append_assoc]
  consoleOut := h.consoleOut.trans h'.consoleOut
  deviceOut := h.deviceOut.trans h'.deviceOut
  draws := h.draws.trans h'.draws
  params := h'.params.trans h.params

theorem PortsGrow.trans_takesAtMostOne {s u t : State} (h : PortsGrow [] s u) :
    TakesAtMostOne u t → TakesAtMostOne s t
  | ⟨taken, hlen, h'⟩ => ⟨taken, hlen, h.trans h'⟩

theorem PortsGrow.of_samePorts {s t : State} (h : SamePorts s t) : PortsGrow [] s t := by
  obtain ⟨hin, hout, hdev, hdraws, hparams, -⟩ := h
  exact ⟨hin.symm, hout ▸ List.prefix_rfl, hdev ▸ List.prefix_rfl, hdraws.ge, hparams⟩

theorem ScanFrame.portsGrow {f : Word} {s t : State} (h : ScanFrame f s t) : PortsGrow [] s t where
  consoleIn := h.consoleIn.symm
  consoleOut := h.out.imp fun _ => Eq.symm
  deviceOut := h.deviceOut ▸ List.prefix_rfl
  draws := h.draws
  params := h.params

theorem State.samePorts_advancePc (s : State) : SamePorts s s.advancePc := ⟨rfl, rfl, rfl, rfl, rfl, rfl⟩

theorem State.samePorts_raise (s : State) (c : FaultCause) (f : Word) : SamePorts s (s.raise c f) :=
  ⟨rfl, rfl, rfl, rfl, rfl, rfl⟩

theorem takesAtMostOne_of_samePorts {s t : State} (h : SamePorts s t) : TakesAtMostOne s t :=
  (PortsGrow.of_samePorts h).takesAtMostOne

theorem portsGrow_of_writeReg {s t : State} {r : RegIdx} {v : Word} (h : .next (s.writeReg r v) = (.next t : Result)) :
    PortsGrow [] s t := by
  cases h
  exact .of_samePorts ⟨rfl, rfl, rfl, rfl, rfl, rfl⟩

theorem State.portsGrow_drawn (s : State) : PortsGrow [] s s.drawn :=
  ⟨rfl, List.prefix_rfl, List.prefix_rfl, Nat.le_succ _, rfl⟩

theorem State.portsGrow_writeChar (s : State) (c : Word) : PortsGrow [] s (s.writeChar c) :=
  ⟨rfl, List.prefix_append _ _, List.prefix_rfl, Nat.le_refl _, rfl⟩

theorem State.portsGrow_writeChars (s : State) (cs : List Word) : PortsGrow [] s (s.writeChars cs) := by
  rw [State.writeChars_eq]
  exact ⟨rfl, List.prefix_append _ _, List.prefix_rfl, Nat.le_refl _, rfl⟩

theorem State.portsGrow_setReady {s : State} {c : Word} {rest : List Word} (h : s.consoleIn = c :: rest) :
    PortsGrow [c] s (s.setReady rest) :=
  ⟨h, List.prefix_rfl, List.prefix_rfl, Nat.le_refl _, rfl⟩

/-- A read that succeeds changes the draws at most. -/
theorem portsGrow_of_read {s s' : State} : s' = s ∨ s' = s.drawn → PortsGrow [] s s'
  | .inl h => h ▸ .of_samePorts ⟨rfl, rfl, rfl, rfl, rfl, rfl⟩
  | .inr h => h ▸ s.portsGrow_drawn

theorem portsGrow_of_load {s t : State} {op : Opcode} {f a : Word} {k : Word → State → Result}
    (h : s.load op f a k = .next t) (hk : ∀ v s', k v s' = .next t → PortsGrow [] s' t) : PortsGrow [] s t := by
  obtain ⟨-, -, rfl⟩ | ⟨v, s', -, hs, h⟩ := s.load_next t op f a k h
  · exact .of_samePorts (s.samePorts_raise _ _)
  · exact (portsGrow_of_read hs).trans (hk v s' h)

theorem portsGrow_of_store {s t : State} {op : Opcode} {f a v : Word} (h : s.store op f a v = .next t) :
    PortsGrow [] s t := by
  obtain ⟨-, e⟩ | ⟨-, -, e⟩ | ⟨-, -, e⟩ := s.store_cases op f a v <;> (rw [e] at h; cases h)
  · exact .of_samePorts ⟨rfl, rfl, rfl, rfl, rfl, rfl⟩
  · exact ⟨rfl, List.prefix_rfl, List.prefix_append _ _, Nat.le_refl _, rfl⟩
  · exact .of_samePorts (s.samePorts_raise _ _)

/-- A readChar takes the oldest ready input or none, whatever the rest of the routine appends. -/
theorem takesAtMostOne_of_awaitChar {s t : State} {r : Routine} {k : Word → State → Result}
    (h : s.awaitChar r k = .next t) (hk : ∀ c s', k c s' = .next t → PortsGrow [] s' t) : TakesAtMostOne s t := by
  obtain ⟨c, s', ⟨rest, hin, rfl⟩ | ⟨-, -, rfl⟩, e⟩ | ⟨-, -, e⟩ := s.awaitChar_cases r k <;> rw [e] at h
  · exact ⟨[c], by simp, (State.portsGrow_setReady hin).trans (hk _ _ h)⟩
  · exact (s.portsGrow_drawn.trans (hk _ _ h)).takesAtMostOne
  · cases h
    exact PortsGrow.takesAtMostOne ⟨rfl, List.prefix_rfl, List.prefix_rfl, Nat.le_succ _, rfl⟩

theorem trapGetc_takesAtMostOne {s t : State} (h : trapGetc s = .next t) : TakesAtMostOne s t :=
  takesAtMostOne_of_awaitChar h fun _ _ => portsGrow_of_writeReg

theorem trapInEcho_takesAtMostOne {s t : State} (h : trapInEcho s = .next t) : TakesAtMostOne s t :=
  takesAtMostOne_of_awaitChar h fun c s' hk => (s'.portsGrow_writeChar c).trans (portsGrow_of_writeReg hk)

theorem trapHalt_portsGrow {s t : State} (h : trapHalt s = .next t) : PortsGrow [] s t := by
  cases h
  exact (s.portsGrow_writeChars _).trans (.of_samePorts ⟨rfl, rfl, rfl, rfl, rfl, rfl⟩)

theorem trapDispatch_takesAtMostOne {v : BitVec 8} {f : Word} {s t : State} (h : trapDispatch v f s = .next t) :
    TakesAtMostOne s t := by
  unfold trapDispatch at h
  split at h
  · exact trapGetc_takesAtMostOne h
  · cases h
    exact (s.portsGrow_writeChar _).takesAtMostOne
  · exact (putsScan_frame _ _ _ _ _ h).portsGrow.takesAtMostOne
  · exact (s.portsGrow_writeChars _).trans_takesAtMostOne (trapInEcho_takesAtMostOne h)
  · exact (putspScan_frame _ _ _ _ _ h).portsGrow.takesAtMostOne
  · exact (trapHalt_portsGrow h).takesAtMostOne
  · cases h
    exact takesAtMostOne_of_samePorts (s.samePorts_raise _ _)

theorem execTrap_takesAtMostOne {v : BitVec 8} {s t : State} (h : execTrap v s = .next t) : TakesAtMostOne s t :=
  have henter : SamePorts s s.advancePc.enterTrap := ⟨rfl, rfl, rfl, rfl, rfl, rfl⟩
  (PortsGrow.of_samePorts henter).trans_takesAtMostOne (trapDispatch_takesAtMostOne h)

theorem resumeRoutine_takesAtMostOne {r : Routine} {s t : State} (h : resumeRoutine r s = .next t) :
    TakesAtMostOne s t := by
  cases r with
  | getc => exact trapGetc_takesAtMostOne h
  | inEcho => exact trapInEcho_takesAtMostOne h
  | puts a => exact (putsScan_frame _ _ _ _ _ h).portsGrow.takesAtMostOne
  | putsp a => exact (putspScan_frame _ _ _ _ _ h).portsGrow.takesAtMostOne

theorem execBr_samePorts {nzp : BitVec 3} {off : BitVec 9} {s t : State} (h : execBr nzp off s = .next t) :
    SamePorts s t := by
  unfold execBr at h
  dsimp only at h
  split at h <;> (cases h; exact ⟨rfl, rfl, rfl, rfl, rfl, rfl⟩)

/-- The ports under one instruction: reads may draw, only stores reach the device port, and only TRAP's routines use the
console. -/
theorem exec_takesAtMostOne {i : Instr} {s t : State} (h : exec i s = .next t) : TakesAtMostOne s t := by
  have hpc : PortsGrow [] s s.advancePc := .of_samePorts s.samePorts_advancePc
  cases i with
  | br nzp off => exact takesAtMostOne_of_samePorts (execBr_samePorts h)
  | addReg | addImm | andReg | andImm | notReg | lea | jmp | jsr | jsrr | rti | res =>
    cases h
    exact takesAtMostOne_of_samePorts ⟨rfl, rfl, rfl, rfl, rfl, rfl⟩
  | ld dr off => exact (hpc.trans (portsGrow_of_load h fun _ _ => portsGrow_of_writeReg)).takesAtMostOne
  | ldr dr base off => exact (hpc.trans (portsGrow_of_load h fun _ _ => portsGrow_of_writeReg)).takesAtMostOne
  | ldi dr off =>
    have hread (p : Word) (u : State) (h' : u.load .ldi s.pc p (fun v u' => .next (u'.writeReg dr v)) = .next t) :
        PortsGrow [] u t := portsGrow_of_load h' fun _ _ => portsGrow_of_writeReg
    exact (hpc.trans (portsGrow_of_load h hread)).takesAtMostOne
  | st sr off => exact (hpc.trans (portsGrow_of_store h)).takesAtMostOne
  | str sr base off => exact (hpc.trans (portsGrow_of_store h)).takesAtMostOne
  | sti sr off => exact (hpc.trans (portsGrow_of_load h fun _ _ => portsGrow_of_store)).takesAtMostOne
  | trap v => exact execTrap_takesAtMostOne h

/-- The ports under one step: taking a routine up again leaves them alone, and a fetch draws at most. -/
theorem step_takesAtMostOne {s t : State} (h : step s = .next t) : TakesAtMostOne s t := by
  obtain ⟨-, ⟨r, -, h⟩ | ⟨-, ⟨-, -, rfl⟩ | ⟨w, s', -, hs, h⟩⟩⟩ := step_next s t h
  · have hresumed : PortsGrow [] s s.resumed := ⟨rfl, List.prefix_rfl, List.prefix_rfl, Nat.le_refl _, rfl⟩
    exact hresumed.trans_takesAtMostOne (resumeRoutine_takesAtMostOne h)
  · exact takesAtMostOne_of_samePorts (s.samePorts_raise _ _)
  · exact (portsGrow_of_read hs).trans_takesAtMostOne (exec_takesAtMostOne h)

/-- A list of at most one taken input is none, or the oldest ready one. -/
theorem consoleIn_of_taken {taken ready left : List Word} (hlen : taken.length ≤ 1) (h : ready = taken ++ left) :
    left = ready ∨ ∃ c, ready = c :: left := by
  match taken, hlen with
  | [], _ => exact .inl h.symm
  | [c], _ => exact .inr ⟨c, h⟩

/-- Settles O51: every step takes at most the oldest ready input and otherwise appends, counts up or leaves alone
(`step_takesAtMostOne`). -/
theorem portsOnlyGrowAndParametersStand : Obligations.PortsOnlyGrowAndParametersStand := by
  intro s t h
  obtain ⟨taken, hlen, hgrow⟩ := step_takesAtMostOne h
  exact ⟨hgrow.consoleOut.imp fun _ => Eq.symm, hgrow.deviceOut.imp fun _ => Eq.symm,
    consoleIn_of_taken hlen hgrow.consoleIn, hgrow.draws, hgrow.params⟩

end Sys2Proof.Machine
end

section
/-! SUPPORT. The statements of spec/10_state.md. What one instruction and one trap routine may do to the state is said
once (InstrFrame, RoutineFrame), together with the fact that each answers a next state (Answers); StepEffect then says
what a step may do, and the statements about registers, CC, PC, the run state and the routine follow from it. -/

namespace Sys2Proof.Machine

/-! ### Answering a next state, and what a read leaves -/

/-- The result is a next state, and P holds of it. -/
def Answers (r : Result) (P : State → Prop) : Prop := ∃ t, r = .next t ∧ P t

theorem Answers.of_eq {r : Result} {P : State → Prop} {t : State} (h : Answers r P) (ht : r = .next t) : P t := by
  obtain ⟨u, hu, hP⟩ := h
  rw [hu] at ht
  cases ht
  exact hP

theorem Answers.imp {r : Result} {P Q : State → Prop} (h : Answers r P) (hPQ : ∀ t, P t → Q t) : Answers r Q :=
  Exists.imp (fun t => And.imp_right (hPQ t)) h

/-- A data read answers what the denied read raises, or what the rest of the handler does. -/
theorem Answers.load {s : State} {op : Opcode} {f a : Word} {k : Word → State → Result} {P : State → Prop}
    (hdenied : P (s.raise (.unimplementedDevice a .read (some (opcodeBits op))) f))
    (hread : ∀ v s', (s' = s ∨ s' = s.drawn) → Answers (k v s') P) : Answers (s.load op f a k) P := by
  unfold State.load
  split
  next v s' e => exact hread v s' (s.readCell_state s' a v e)
  next => exact ⟨_, rfl, hdenied⟩

theorem Reads.pc_eq {s s' : State} {a v : Word} (h : Reads s a v s') : s'.pc = s.pc := by
  obtain ⟨-, hpc, -⟩ := h.same
  exact hpc

theorem Reads.cc_eq {s s' : State} {a v : Word} (h : Reads s a v s') : s'.cc = s.cc := by
  obtain ⟨-, -, hcc, -⟩ := h.same
  exact hcc

theorem Reads.params_eq {s s' : State} {a v : Word} (h : Reads s a v s') : s'.params = s.params := by
  obtain ⟨-, -, -, -, -, -, -, -, hparams, -⟩ := h.same
  exact hparams

/-! ### Registers and CC -/

/-- No register is written, and so no flag (R24). -/
def RegsKept (s t : State) : Prop := t.regs = s.regs ∧ t.cc = s.cc

/-- The one register written is r, by WriteReg, which sets CC (R24, R25). -/
def RegSet (r : RegIdx) (s t : State) : Prop := ∃ v, t.regs = (s.writeReg r v).regs ∧ t.cc = ccOf v

theorem ccShows_ccOf (v : Word) : CcShows v (ccOf v) := by simp [CcShows, ccOf, ccZ, ccN, ccP]

theorem RegsKept.sameRegs {s t : State} (h : RegsKept s t) : t.cc = s.cc ∧ SameRegsBut s t [] :=
  ⟨h.2, fun r _ => State.readReg_congr h.1 r⟩

theorem RegSet.ccShows {r : RegIdx} {s t : State} (h : RegSet r s t) : CcShows (t.readReg r) t.cc := by
  obtain ⟨v, hregs, hcc⟩ := h
  rw [State.readReg_congr hregs, State.readReg_writeReg_same, hcc]
  exact ccShows_ccOf v

theorem RegSet.readReg_ne {r q : RegIdx} {s t : State} (h : RegSet r s t) (hq : q ≠ r) : t.readReg q = s.readReg q := by
  obtain ⟨v, hregs, -⟩ := h
  rw [State.readReg_congr hregs, State.readReg_writeReg_ne _ _ _ _ hq]

theorem RegSet.sameRegsBut {r : RegIdx} {s t : State} (h : RegSet r s t) : SameRegsBut s t [r] :=
  fun _ hq => h.readReg_ne (by simpa using hq)

theorem ccLegal_of_regs {s t : State} (hs : ccLegal s.cc = true) :
    (RegsKept s t ∨ ∃ r, RegSet r s t) → ccLegal t.cc = true
  | .inl ⟨_, hcc⟩ => hcc ▸ hs
  | .inr ⟨_, v, _, hcc⟩ => hcc ▸ ccOf_legal v

/-! ### Instructions other than TRAP -/

/-- The register an instruction writes itself (R24): DR, or R7 for the links of JSR and JSRR and for trap entry. -/
def destReg : Instr → Option RegIdx
  | .addReg dr _ _ | .addImm dr _ _ | .andReg dr _ _ | .andImm dr _ _ | .notReg dr _ => some dr
  | .ld dr _ | .ldi dr _ | .ldr dr _ _ | .lea dr _ => some dr
  | .jsr _ | .jsrr _ | .trap _ => some 7#3
  | .br _ _ | .jmp _ | .st _ _ | .sti _ _ | .str _ _ _ | .rti | .res => none

/-- The instructions that write PC beside the increment of R23 (R90 to R93). -/
def TransfersControl (i : Instr) : Prop :=
  (∃ a b, i = .br a b) ∨ (∃ a, i = .jmp a) ∨ (∃ a, i = .jsr a) ∨ ∃ a, i = .jsrr a

/-- What an instruction other than TRAP may do once PC is written: one register at most, one cell at most, and a fault
at most of the run states. -/
structure InstrFrame (dest : Option RegIdx) (s t : State) : Prop where
  pc : t.pc = s.pc
  regs : RegsKept s t ∨ ∃ r, dest = some r ∧ RegSet r s t
  mem : t.mem = s.mem ∨ ∃ a v, t.mem = s.mem.write a v
  run : t.run = s.run ∨ ∃ r, t.run = .faulted r
  routine : t.routine = s.routine

theorem InstrFrame.refl (d : Option RegIdx) (s : State) : InstrFrame d s s :=
  ⟨rfl, .inl ⟨rfl, rfl⟩, .inl rfl, .inl rfl, rfl⟩

theorem InstrFrame.writeReg (s : State) (r : RegIdx) (v : Word) : InstrFrame (some r) s (s.writeReg r v) :=
  ⟨rfl, .inr ⟨r, rfl, v, rfl, rfl⟩, .inl rfl, .inl rfl, rfl⟩

theorem InstrFrame.raise (d : Option RegIdx) (s : State) (c : FaultCause) (f : Word) : InstrFrame d s (s.raise c f) :=
  ⟨rfl, .inl ⟨rfl, rfl⟩, .inl rfl, .inr ⟨_, rfl⟩, rfl⟩

/-- A read before the instruction's effect adds a draw at most. -/
theorem InstrFrame.of_read {d : Option RegIdx} {s s' t : State} (hs : s' = s ∨ s' = s.drawn)
    (h : InstrFrame d s' t) : InstrFrame d s t := by
  obtain ⟨hpc, hregs, hmem, hrun, hroutine⟩ := h
  obtain rfl | rfl := hs <;> exact ⟨hpc, hregs, hmem, hrun, hroutine⟩

theorem load_instrFrame {d : Option RegIdx} {s : State} {op : Opcode} {f a : Word} {k : Word → State → Result}
    (hk : ∀ v s', Answers (k v s') (InstrFrame d s')) : Answers (s.load op f a k) (InstrFrame d s) :=
  .load (.raise d s _ f) fun v s' hs => (hk v s').imp fun _ => .of_read hs

theorem store_instrFrame (s : State) (op : Opcode) (f a v : Word) :
    Answers (s.store op f a v) (InstrFrame none s) := by
  obtain ⟨-, e⟩ | ⟨-, -, e⟩ | ⟨-, -, e⟩ := s.store_cases op f a v
  · exact ⟨_, e, rfl, .inl ⟨rfl, rfl⟩, .inr ⟨a, v, rfl⟩, .inl rfl, rfl⟩
  · exact ⟨_, e, rfl, .inl ⟨rfl, rfl⟩, .inl rfl, .inl rfl, rfl⟩
  · exact ⟨_, e, .raise none s _ f⟩

theorem execBr_instrFrame (nzp : BitVec 3) (off : BitVec 9) (s : State) :
    ∃ target, Answers (execBr nzp off s) (InstrFrame none (s.setPc target)) := by
  unfold execBr
  dsimp only
  split
  · exact ⟨s.advancePc.pcRelative off, _, rfl, .refl _ _⟩
  · exact ⟨s.pc + 1#16, _, rfl, .refl _ _⟩

/-- Every instruction but TRAP answers a next state: it writes PC(next), or its target, and stays within its frame. -/
theorem exec_instrFrame {i : Instr} (s : State) (hi : ∀ v, i ≠ .trap v) :
    ∃ target, (target = s.pc + 1#16 ∨ TransfersControl i) ∧
      Answers (exec i s) (InstrFrame (destReg i) (s.setPc target)) := by
  cases i with
  | trap v => exact absurd rfl (hi v)
  | br nzp off => exact (execBr_instrFrame nzp off s).imp fun _ => .intro (.inr (.inl ⟨nzp, off, rfl⟩))
  | jmp base => exact ⟨s.readReg base, .inr (.inr (.inl ⟨base, rfl⟩)), _, rfl, .refl _ _⟩
  | jsr off => exact ⟨s.pc + 1#16 + sext16 off, .inr (.inr (.inr (.inl ⟨off, rfl⟩))), _, rfl, .writeReg _ _ _⟩
  | jsrr base =>
    exact ⟨(s.writeReg 7#3 (s.pc + 1#16)).readReg base, .inr (.inr (.inr (.inr ⟨base, rfl⟩))), _, rfl, .writeReg _ _ _⟩
  | addReg | addImm | andReg | andImm | notReg | lea => exact ⟨_, .inl rfl, _, rfl, .writeReg _ _ _⟩
  | rti | res => exact ⟨_, .inl rfl, _, rfl, .raise _ _ _ _⟩
  | ld | ldr => exact ⟨_, .inl rfl, load_instrFrame fun _ _ => ⟨_, rfl, .writeReg _ _ _⟩⟩
  | ldi =>
    exact ⟨_, .inl rfl, load_instrFrame fun _ _ => load_instrFrame fun _ _ => ⟨_, rfl, .writeReg _ _ _⟩⟩
  | st | str => exact ⟨_, .inl rfl, store_instrFrame _ _ _ _ _⟩
  | sti => exact ⟨_, .inl rfl, load_instrFrame fun _ _ => store_instrFrame _ _ _ _ _⟩

/-! ### Trap routines -/

/-- A routine leaves the engine suspended only in a readChar with no value ready, or in a scan with a device attached
(R124, R158). -/
def CanWait (takesChar : Prop) (s : State) : Routine → Prop
  | .getc | .inEcho => takesChar ∧ s.consoleIn = []
  | .puts _ | .putsp _ => s.params.deviceAttached = true

/-- What a trap routine may do (R129), `takesChar` saying whether it calls readChar and `halts` whether it is HALT's:
R0 at most of the registers, and where it leaves the engine suspended, no register and no run state. -/
structure RoutineFrame (takesChar halts : Prop) (s t : State) : Prop where
  pc : t.pc = s.pc
  mem : t.mem = s.mem
  params : t.params = s.params
  regs : RegsKept s t ∨ takesChar ∧ RegSet 0#3 s t
  run : t.run = s.run ∨ halts ∧ t.run = .halted ∨ ∃ r, t.run = .faulted r
  routine : t.routine = s.routine ∨
    ∃ r, t.routine = some r ∧ CanWait takesChar s r ∧ RegsKept s t ∧ t.run = s.run

theorem RoutineFrame.raise (C H : Prop) (s : State) (c : FaultCause) (f : Word) : RoutineFrame C H s (s.raise c f) :=
  ⟨rfl, rfl, rfl, .inl ⟨rfl, rfl⟩, .inr (.inr ⟨_, rfl⟩), .inl rfl⟩

/-- A read before the routine adds a draw at most. -/
theorem RoutineFrame.of_read {C H : Prop} {s s' t : State} (hs : s' = s ∨ s' = s.drawn)
    (h : RoutineFrame C H s' t) : RoutineFrame C H s t := by
  obtain ⟨hpc, hmem, hparams, hregs, hrun, hroutine⟩ := h
  obtain rfl | rfl := hs
  · exact ⟨hpc, hmem, hparams, hregs, hrun, hroutine⟩
  · refine ⟨hpc, hmem, hparams, hregs, hrun, hroutine.imp_right ?_⟩
    rintro ⟨r, hr, hwait, hkept⟩
    exact ⟨r, hr, by cases r <;> exact hwait, hkept⟩

/-- What a routine writes to the console before the rest of it. -/
theorem RoutineFrame.of_writeChars {C H : Prop} {s t : State} (cs : List Word)
    (h : RoutineFrame C H (s.writeChars cs) t) : RoutineFrame C H s t := by
  rw [State.writeChars_eq] at h
  obtain ⟨hpc, hmem, hparams, hregs, hrun, hroutine⟩ := h
  refine ⟨hpc, hmem, hparams, hregs, hrun, hroutine.imp_right ?_⟩
  rintro ⟨r, hr, hwait, hkept⟩
  exact ⟨r, hr, by cases r <;> exact hwait, hkept⟩

/-- A readChar whose character, echoed or not, goes to R0 (R122, R125). -/
theorem awaitChar_routineFrame {C H : Prop} (hC : C) (s : State) {r : Routine} {k : Word → State → Result}
    (echo : Word → List Word) (hr : r.seen = true) (hk : ∀ c u, k c u = .next ((u.writeChars (echo c)).writeReg 0#3 c)) :
    Answers (s.awaitChar r k) (RoutineFrame C H s) := by
  simp only [State.writeChars_eq] at hk
  have hset (c : Word) : C ∧ RegSet 0#3 s (s.writeReg 0#3 c) := ⟨hC, c, rfl, rfl⟩
  obtain ⟨c, u, ⟨rest, -, rfl⟩ | ⟨-, -, rfl⟩, e⟩ | ⟨hin, -, e⟩ := s.awaitChar_cases r k
  · exact ⟨_, e.trans (hk c _), rfl, rfl, rfl, .inr (hset c), .inl rfl, .inl rfl⟩
  · exact ⟨_, e.trans (hk c _), rfl, rfl, rfl, .inr (hset c), .inl rfl, .inl rfl⟩
  · have hwait : CanWait C s r := by
      cases r with
      | getc | inEcho => exact ⟨hC, hin⟩
      | puts | putsp => cases hr
    exact ⟨_, e, rfl, rfl, rfl, .inl ⟨rfl, rfl⟩, .inl rfl, .inr ⟨r, rfl, hwait, ⟨rfl, rfl⟩, rfl⟩⟩

theorem trapGetc_routineFrame {C : Prop} (H : Prop) (hC : C) (s : State) :
    Answers (trapGetc s) (RoutineFrame C H s) :=
  awaitChar_routineFrame hC s (fun _ => []) rfl fun _ _ => rfl

theorem trapInEcho_routineFrame {C : Prop} (H : Prop) (hC : C) (s : State) :
    Answers (trapInEcho s) (RoutineFrame C H s) :=
  awaitChar_routineFrame hC s (fun c => [c]) rfl fun _ _ => rfl

theorem putsScan_answers (n : Nat) (f a : Word) (s : State) : Answers (putsScan n f a s) fun _ => True := by
  induction n generalizing a s with
  | zero => exact ⟨_, rfl, trivial⟩
  | succ n ih =>
    refine .load trivial fun c s' _ => ?_
    split
    · exact ⟨_, rfl, trivial⟩
    · exact ih _ _

theorem putspScan_answers (n : Nat) (f a : Word) (s : State) : Answers (putspScan n f a s) fun _ => True := by
  induction n generalizing a s with
  | zero => exact ⟨_, rfl, trivial⟩
  | succ n ih =>
    refine .load trivial fun c s' _ => ?_
    dsimp only
    split
    · exact ⟨_, rfl, trivial⟩
    · split
      · exact ⟨_, rfl, trivial⟩
      · exact ih _ _

/-- A scan stays within the frame of a routine, once it is known never to be suspended without a device. -/
theorem scan_routineFrame {C H : Prop} {f : Word} {s : State} {r : Result} (hanswers : Answers r fun _ => True)
    (hframe : ∀ t, r = .next t → ScanFrame f s t)
    (habsent : s.params.deviceAttached = false → Answers r (·.routine = s.routine)) :
    Answers r (RoutineFrame C H s) := by
  obtain ⟨t, ht, -⟩ := hanswers
  obtain ⟨hregs, hpc, hcc, hmem, -, -, hparams, -, -, hrun, hroutine⟩ := hframe t ht
  refine ⟨t, ht, hpc, hmem, hparams, .inl ⟨hregs, hcc⟩, hrun.imp_right fun ⟨_, _, _, h⟩ => .inr ⟨_, h⟩, ?_⟩
  cases ha : s.params.deviceAttached with
  | false => exact .inl ((habsent ha).of_eq ht)
  | true =>
    refine hroutine.imp_right ?_
    rintro ⟨hrun, a, hr | hr⟩ <;> exact ⟨_, hr, ha, ⟨hregs, hcc⟩, hrun⟩

theorem putsScan_routineFrame {C H : Prop} (f a : Word) (s : State) :
    Answers (putsScan scanLap f a s) (RoutineFrame C H s) :=
  scan_routineFrame (putsScan_answers _ f a s) (fun t => putsScan_frame _ f a s t)
    fun ha => putsScan_absent scanLap f a s ha (BitVec.isLt _)

theorem putspScan_routineFrame {C H : Prop} (f a : Word) (s : State) :
    Answers (putspScan scanLap f a s) (RoutineFrame C H s) :=
  scan_routineFrame (putspScan_answers _ f a s) (fun t => putspScan_frame _ f a s t)
    fun ha => putspScan_absent scanLap f a s ha (BitVec.isLt _)

/-- TRAP's readChar is GETC's or IN's (R122, R125). -/
def ReadsChar (v : BitVec 8) : Prop := v = 0x20#8 ∨ v = 0x23#8

theorem trapDispatch_routineFrame (v : BitVec 8) (f : Word) (s : State) :
    Answers (trapDispatch v f s) (RoutineFrame (ReadsChar v) (v = 0x25#8) s) := by
  unfold trapDispatch
  split
  next hv => exact trapGetc_routineFrame _ (.inl (BitVec.eq_of_toNat_eq hv)) s
  next => exact ⟨_, rfl, rfl, rfl, rfl, .inl ⟨rfl, rfl⟩, .inl rfl, .inl rfl⟩
  next => exact putsScan_routineFrame f _ s
  next hv =>
    exact (trapInEcho_routineFrame _ (.inr (BitVec.eq_of_toNat_eq hv)) _).imp fun _ => .of_writeChars s.params.inPrompt
  next => exact putspScan_routineFrame f _ s
  next hv =>
    have hhalt : RoutineFrame (ReadsChar v) (v = 0x25#8) (s.writeChars s.params.haltMessage)
        (s.writeChars s.params.haltMessage).halt :=
      ⟨rfl, rfl, rfl, .inl ⟨rfl, rfl⟩, .inr (.inl ⟨BitVec.eq_of_toNat_eq hv, rfl⟩), .inl rfl⟩
    exact ⟨_, rfl, hhalt.of_writeChars⟩
  next => exact ⟨_, rfl, .raise _ _ s _ f⟩

/-- TRAP is the entry, and then its routine. -/
theorem execTrap_routineFrame (v : BitVec 8) (s : State) :
    Answers (exec (.trap v) s) (RoutineFrame (ReadsChar v) (v = 0x25#8) s.advancePc.enterTrap) :=
  trapDispatch_routineFrame v s.pc s.advancePc.enterTrap

theorem resumeRoutine_routineFrame (r : Routine) (s : State) :
    Answers (resumeRoutine r s) (RoutineFrame True False s) := by
  cases r with
  | getc => exact trapGetc_routineFrame _ trivial s
  | inEcho => exact trapInEcho_routineFrame _ trivial s
  | puts a => exact putsScan_routineFrame _ a s
  | putsp a => exact putspScan_routineFrame _ a s

/-! ### A step -/

/-- Everything a step may do, from s to t: a suspended routine goes on; the fetch faults; or the word fetched is a TRAP,
or another instruction, and its frame holds. -/
inductive StepEffect (s t : State) : Prop where
  | resumed {r : Routine} (hr : s.routine = some r) (h : RoutineFrame True False s.resumed t)
  | fetchFault (hr : s.routine = none) (hd : Denied s s.pc)
      (ht : t = s.raise (.unimplementedDevice s.pc .fetch none) s.pc)
  | trap {w : Word} {s' : State} {v : BitVec 8} (hr : s.routine = none) (hw : Reads s s.pc w s')
      (hv : decode w = .trap v) (h : RoutineFrame (ReadsChar v) (v = 0x25#8) s.advancePc.enterTrap t)
  | instr {w : Word} {s' : State} {target : Word} (hr : s.routine = none) (hw : Reads s s.pc w s')
      (hp : target = s.pc + 1#16 ∨ TransfersControl (decode w))
      (h : InstrFrame (destReg (decode w)) (s.setPc target) t)

theorem step_effect {s t : State} (h : step s = .next t) : s.run = .running ∧ StepEffect s t := by
  obtain ⟨hrun, ⟨r, hr, h⟩ | ⟨hr, ⟨hdev, ha, ht⟩ | ⟨w, s', e, hs, h⟩⟩⟩ := step_next s t h <;> refine ⟨hrun, ?_⟩
  · exact .resumed hr ((resumeRoutine_routineFrame r s.resumed).of_eq h)
  · exact .fetchFault hr ⟨(s.isDevice_iff _).1 hdev, ha⟩ ht
  · have hw := (reads_iff s s' s.pc w).2 e
    by_cases hi : ∀ v, decode w ≠ .trap v
    · obtain ⟨target, hp, hans⟩ := exec_instrFrame s' hi
      rw [hw.pc_eq] at hp
      exact .instr hr hw hp ((hans.of_eq h).of_read (hs.imp (· ▸ rfl) (· ▸ rfl)))
    · obtain ⟨v, hv⟩ := not_forall_not.1 hi
      rw [hv] at h
      exact .trap hr hw hv (((execTrap_routineFrame v s').of_eq h).of_read
        (hs.imp (· ▸ rfl) (· ▸ rfl)))

/-! ### The run state -/

theorem RoutineFrame.halts {C H : Prop} {s t : State} (h : RoutineFrame C H s t) (hs : s.run = .running)
    (ht : t.run = .halted) : H := by
  obtain hrun | ⟨hH, -⟩ | ⟨_, hrun⟩ := h.run
  · rw [ht, hs] at hrun
    cases hrun
  · exact hH
  · rw [ht] at hrun
    cases hrun

theorem InstrFrame.not_halted {d : Option RegIdx} {s t : State} (h : InstrFrame d s t) (hs : s.run = .running) :
    t.run ≠ .halted := by
  obtain hrun | ⟨_, hrun⟩ := h.run <;> simp [hrun, hs]

/-- Settles O41: only HALT's routine ends in HALTED, and a step takes it only where it fetched TRAP x25
(`step_effect`). -/
theorem haltedIsEnteredOnlyByTheHaltTrap : Obligations.HaltedIsEnteredOnlyByTheHaltTrap := by
  intro s t h hhalted
  obtain ⟨hrunning, heffect⟩ := step_effect h
  cases heffect with
  | resumed _ h => exact (h.halts hrunning hhalted).elim
  | fetchFault _ _ ht => simp [ht] at hhalted
  | trap hr hw hv h =>
    obtain rfl := h.halts hrunning hhalted
    exact ⟨hr, _, _, hw, hv⟩
  | instr _ _ _ h => exact absurd hhalted (h.not_halted hrunning)

/-! ### The invariant -/

theorem InstrFrame.wf {d : Option RegIdx} {s t : State} (h : InstrFrame d s t) (hs : s.mem.wf = true) :
    t.mem.wf = true := by
  obtain hmem | ⟨a, v, hmem⟩ := h.mem <;> rw [hmem]
  · exact hs
  · exact Memory.wf_write _ a v hs

theorem InstrFrame.ccLegal {d : Option RegIdx} {s t : State} (h : InstrFrame d s t) (hs : ccLegal s.cc = true) :
    ccLegal t.cc = true :=
  ccLegal_of_regs hs (h.regs.imp_right (Exists.imp fun _ => And.right))

theorem State.routineLegal_of_none {s : State} (h : s.routine = none) : s.routineLegal = true := by
  simp [State.routineLegal, h]

theorem State.routineLegal_some {s : State} {r : Routine} (h : s.routine = some r) : s.routineLegal = true ↔
    r.possible s.params = true ∧ s.run = .running ∧ s.readReg 7#3 = s.pc ∧ s.cc = ccOf s.pc := by
  simp [State.routineLegal, h, and_assoc]

theorem CanWait.possible {C : Prop} {s : State} {r : Routine} (h : CanWait C s r) : r.possible s.params = true := by
  cases r with
  | getc | inEcho => rfl
  | puts | putsp => exact h

/-- A routine keeps the invariant from a state whose R7 and CC are as trap entry left them (R120). -/
theorem RoutineFrame.inv {C H : Prop} {s t : State} (h : RoutineFrame C H s t) (hwf : s.mem.wf = true)
    (hnone : s.routine = none) (hrun : s.run = .running) (hlink : s.readReg 7#3 = s.pc) (hcc : s.cc = ccOf s.pc) :
    t.Inv := by
  refine ⟨h.mem ▸ hwf, ccLegal_of_regs (hcc ▸ ccOf_legal s.pc) (h.regs.imp_right fun hset => ⟨0#3, hset.2⟩), ?_⟩
  obtain hr | ⟨r, hr, hwait, ⟨hregs, hcc'⟩, hrun'⟩ := h.routine
  · exact State.routineLegal_of_none (hr.trans hnone)
  · rw [State.routineLegal_some hr, h.params, hrun', State.readReg_congr hregs, hcc', h.pc]
    exact ⟨hwait.possible, hrun, hlink, hcc⟩

/-- Settles O43: an instruction keeps each part of the invariant by its frame, and so does a routine from a state that
trap entry, or the invariant of the suspended state, has prepared. -/
theorem everyStepKeepsTheInvariant : Obligations.EveryStepKeepsTheInvariant := by
  rintro s t ⟨hwf, hcc, hlegal⟩ h
  obtain ⟨hrunning, heffect⟩ := step_effect h
  cases heffect with
  | resumed hr h =>
    obtain ⟨-, -, hlink, hcc'⟩ := (State.routineLegal_some hr).1 hlegal
    exact h.inv hwf rfl hrunning hlink hcc'
  | fetchFault hr _ ht =>
    subst ht
    exact ⟨hwf, hcc, State.routineLegal_of_none hr⟩
  | trap hr _ _ h => exact h.inv hwf hr hrunning (State.readReg_writeReg_same _ _ _) rfl
  | instr hr _ _ h => exact ⟨h.wf hwf, h.ccLegal hcc, State.routineLegal_of_none (h.routine.trans hr)⟩

/-! ### Registers, CC and PC -/

/-- GETC and IN write R0 after R7: CC is R0's, and R7 still holds PC(next). -/
theorem trap_char_regs {s t : State} (h : RegSet 0#3 s.advancePc.enterTrap t) :
    CcShows (t.readReg 0#3) t.cc ∧ t.readReg 7#3 = s.pc + 1#16 ∧ SameRegsBut s t [0#3, 7#3] := by
  refine ⟨h.ccShows, ?_, fun q hq => ?_⟩
  · rw [h.readReg_ne (by decide)]
    exact State.readReg_writeReg_same _ _ _
  · obtain ⟨h0, h7⟩ : q ≠ 0#3 ∧ q ≠ 7#3 := by simpa using hq
    rw [h.readReg_ne h0]
    exact State.readReg_writeReg_ne _ _ _ _ h7

/-- Settles O45: every effect of a step writes no register, one by WriteReg, or R7 and then R0 (GETC and IN). -/
theorem ccFollowsEveryRegisterWrite : Obligations.CcFollowsEveryRegisterWrite := by
  intro s t h
  cases (step_effect h).2 with
  | resumed _ h =>
    obtain hkept | ⟨-, hset⟩ := h.regs
    · exact .inl (RegsKept.sameRegs (s := s) hkept)
    · exact .inr (.inl ⟨0#3, hset.ccShows, hset.sameRegsBut⟩)
  | fetchFault _ _ ht =>
    subst ht
    exact .inl ⟨rfl, fun _ _ => rfl⟩
  | trap hr hw hv h =>
    obtain ⟨hregs, hcc⟩ | ⟨hchar, hset⟩ := h.regs
    · have hlink : RegSet 7#3 s t := ⟨s.pc + 1#16, hregs, hcc⟩
      exact .inr (.inl ⟨7#3, hlink.ccShows, hlink.sameRegsBut⟩)
    · obtain ⟨hcc, h7, hsame⟩ := trap_char_regs hset
      exact .inr (.inr ⟨hcc, h7, hsame, hr, _, _, hw, hchar.imp (hv.trans <| congrArg _ ·) (hv.trans <| congrArg _ ·)⟩)
  | instr _ _ _ h =>
    obtain hkept | ⟨r, -, hset⟩ := h.regs
    · exact .inl (RegsKept.sameRegs (s := s) hkept)
    · exact .inr (.inl ⟨r, hset.ccShows, hset.sameRegsBut⟩)

/-- Settles O48: the instructions named write no register (`destReg`), and with it no flag. -/
theorem ccIsNotWrittenByBranchesStoresAndFaults : Obligations.CcIsNotWrittenByBranchesStoresAndFaults := by
  intro i s t hi h
  have hdest : (∀ v, i ≠ .trap v) ∧ destReg i = none := by
    obtain ⟨_, _, rfl⟩ | ⟨_, rfl⟩ | ⟨_, _, rfl⟩ | ⟨_, _, rfl⟩ | ⟨_, _, _, rfl⟩ | rfl | rfl := hi <;> simp [destReg]
  obtain ⟨target, -, hans⟩ := exec_instrFrame s hdest.1
  obtain hkept | ⟨r, hr, -⟩ := (hans.of_eq h).regs
  · exact RegsKept.sameRegs (s := s) hkept
  · rw [hdest.2] at hr
    cases hr

/-- Settles O46: `ccOf` splits on zero and the sign bit, which is the sign of the two's complement number. -/
theorem setCcLeavesExactlyOneFlag : Obligations.SetCcLeavesExactlyOneFlag := by
  refine fun s r v => ⟨?_, State.readReg_writeReg_same s r v, fun q hq =>
    State.readReg_writeReg_ne s r q v (by simpa using hq)⟩
  have hzero : v = 0x0000#16 ↔ v.toNat = 0 := by bv_omega
  have hsign : v.getLsbD 15 = true ↔ v.toInt < 0 := by
    rw [← BitVec.msb_eq_getLsbD_last, BitVec.msb_eq_toInt, decide_eq_true_iff]
  have hnat : v.toInt = 0 ↔ v.toNat = 0 := by
    rw [← hzero, ← BitVec.toInt_inj, BitVec.toInt_zero]
  simp only [State.writeReg_cc, ccOf, hzero, hsign, ccZ, ccN, ccP]
  split
  · simp; omega
  · split <;> simp <;> omega

/-- Settles O50: each effect of a step fixes PC: a routine and a faulting fetch keep it, TRAP and every instruction but
the control transfers leave PC(next). -/
theorem pcAdvancesUnlessControlTransfers : Obligations.PcAdvancesUnlessControlTransfers := by
  intro s t h
  have hnext : (s.pc + 1#16).toNat = (s.pc.toNat + 1) % 65536 := BitVec.toNat_add _ _
  cases (step_effect h).2 with
  | resumed hr h => exact .inl ⟨by simp [hr], h.pc⟩
  | fetchFault hr hd ht =>
    subst ht
    exact .inr ⟨hr, .inr (.inl ⟨rfl, hd⟩)⟩
  | trap hr _ _ h => exact .inr ⟨hr, .inl (h.pc ▸ hnext)⟩
  | instr hr hw hp h =>
    obtain rfl | htransfer := hp
    · exact .inr ⟨hr, .inl (h.pc ▸ hnext)⟩
    · exact .inr ⟨hr, .inr (.inr ⟨_, _, hw, htransfer⟩)⟩

/-! ### Who reads CC -/

/-- Two results that agree but for CC, the state before holding `old` in one run and `new` in the other: CC included
where the instruction writes it, and else with each run's own CC (R27). -/
def AgreeButCc (old new : BitVec 3) (r r' : Result) : Prop :=
  ∃ t, r = .next t ∧ (r' = .next t ∨ t.cc = old ∧ r' = .next { t with cc := new })

theorem AgreeButCc.kept {new : BitVec 3} {t : State} : AgreeButCc t.cc new (.next t) (.next { t with cc := new }) :=
  ⟨t, rfl, .inr ⟨rfl, rfl⟩⟩

theorem AgreeButCc.written {old new : BitVec 3} (s : State) (r : RegIdx) (v : Word) :
    AgreeButCc old new (.next (s.writeReg r v)) (.next ({ s with cc := new }.writeReg r v)) :=
  ⟨_, rfl, .inl rfl⟩

theorem load_agreeButCc {s : State} (new : BitVec 3) {op : Opcode} {f a : Word} {k : Word → State → Result}
    (hk : ∀ v s', s'.cc = s.cc → AgreeButCc s.cc new (k v s') (k v { s' with cc := new })) :
    AgreeButCc s.cc new (s.load op f a k) ({ s with cc := new }.load op f a k) := by
  obtain ⟨v, s', hr⟩ | hd := reads_or_denied s a
  · have hr' : Reads { s with cc := new } a v { s' with cc := new } := by
      obtain ⟨h, hv, rfl⟩ | ⟨h, ha, hv, rfl⟩ := hr
      · exact .inl ⟨h, hv, rfl⟩
      · exact .inr ⟨h, ha, hv, rfl⟩
    rw [load_of_reads hr, load_of_reads hr']
    exact hk v s' hr.cc_eq
  · rw [load_of_denied hd, load_of_denied (s := { s with cc := new }) hd]
    exact .kept

theorem store_agreeButCc (s : State) (new : BitVec 3) (op : Opcode) (f a v : Word) :
    AgreeButCc s.cc new (s.store op f a v) ({ s with cc := new }.store op f a v) := by
  obtain ⟨hd, e⟩ | ⟨hd, ha, e⟩ | ⟨hd, ha, e⟩ := s.store_cases op f a v <;> rw [e]
  · rw [State.store_plain { s with cc := new } op f a v hd]
    exact .kept
  · rw [State.store_attached { s with cc := new } op f a v hd ha]
    exact .kept
  · rw [State.store_absent { s with cc := new } op f a v hd ha]
    exact .kept

/-- Trap entry writes CC, so nothing after it sees what CC was (R157). -/
theorem execTrap_agreeButCc (v : BitVec 8) (s : State) (new : BitVec 3) :
    AgreeButCc s.cc new (exec (.trap v) s) (exec (.trap v) { s with cc := new }) := by
  obtain ⟨t, ht, -⟩ := execTrap_routineFrame v s
  exact ⟨t, ht, .inl ht⟩

theorem exec_agreeButCc {i : Instr} (s : State) (new : BitVec 3) (hi : ∀ nzp off, i ≠ .br nzp off) :
    AgreeButCc s.cc new (exec i s) (exec i { s with cc := new }) := by
  cases i with
  | br nzp off => exact absurd rfl (hi nzp off)
  | trap v => exact execTrap_agreeButCc v s new
  | addReg | addImm | andReg | andImm | notReg | lea => exact .written s.advancePc _ _
  | jsr | jsrr => exact ⟨_, rfl, .inl rfl⟩
  | jmp | rti | res => exact ⟨_, rfl, .inr ⟨rfl, rfl⟩⟩
  | ld | ldr => exact load_agreeButCc (s := s.advancePc) new fun _ u _ => .written u _ _
  | ldi =>
    exact load_agreeButCc (s := s.advancePc) new fun _ u hu =>
      hu ▸ load_agreeButCc new fun _ u' _ => .written u' _ _
  | st | str => exact store_agreeButCc s.advancePc new _ _ _ _
  | sti =>
    exact load_agreeButCc (s := s.advancePc) new fun _ u hu => hu ▸ store_agreeButCc u new _ _ _ _

/-- Settles O47: `exec_agreeButCc`, by cases on the instruction. -/
theorem ccIsReadByBrOnly : Obligations.CcIsReadByBrOnly := by
  intro i s new hi
  obtain ⟨t, ht, ht' | ⟨hcc, ht'⟩⟩ := exec_agreeButCc s new hi <;> rw [ht, ht']
  · exact ⟨rfl, .inl rfl⟩
  · exact ⟨rfl, .inr ⟨hcc, rfl⟩⟩

/-! ### The gates of a step -/

theorem State.whenRunning_running {s : State} (h : s.run = .running) (k : Result) : s.whenRunning k = k := by
  simp [State.whenRunning, h]

theorem State.fetch_of_reads {s s' : State} {w : Word} (h : Reads s s.pc w s') (k : Word → State → Result) :
    s.fetch k = k w s' := by
  simp [State.fetch, (reads_iff _ _ _ _).1 h]

theorem State.fetch_of_denied {s : State} (h : Denied s s.pc) (k : Word → State → Result) :
    s.fetch k = .next (s.raise (.unimplementedDevice s.pc .fetch none) s.pc) := by
  simp [State.fetch, (denied_iff _ _).1 h]

theorem step_of_routine {s : State} {r : Routine} (hrun : s.run = .running) (hr : s.routine = some r) :
    step s = resumeRoutine r s.resumed := by
  rw [step, State.whenRunning_running hrun, s.resumeOr_some r _ hr]

theorem step_of_reads {s s' : State} {w : Word} (hrun : s.run = .running) (hr : s.routine = none)
    (hw : Reads s s.pc w s') : step s = s'.acceptWord w (exec (decode w) s') := by
  rw [step, State.whenRunning_running hrun, s.resumeOr_none _ hr, State.fetch_of_reads hw]

theorem step_of_denied {s : State} (hrun : s.run = .running) (hr : s.routine = none) (hd : Denied s s.pc) :
    step s = .next (s.raise (.unimplementedDevice s.pc .fetch none) s.pc) := by
  rw [step, State.whenRunning_running hrun, s.resumeOr_none _ hr, State.fetch_of_denied hd]

theorem State.acceptWord_of_wellFormed {s : State} {w : Word} (h : wordWellFormed s.params.strictDecode w = true)
    (k : Result) : s.acceptWord w k = k := if_pos h

/-- Settles O38: the gates of `step` open one after another. -/
theorem stepRunsTheDecodedInstruction : Obligations.StepRunsTheDecodedInstruction := by
  refine fun s hrun hr => ⟨fun w s' hw hwell => ?_, step_of_denied hrun hr⟩
  rw [step_of_reads hrun hr hw, State.acceptWord_of_wellFormed (hw.params_eq ▸ hwell)]

/-- Settles O39: the fetch at a plain PC reads the word placed there, and STRICT_DECODE = false accepts every word. -/
theorem placedWordIsTheNextInstruction : Obligations.PlacedWordIsTheNextInstruction := by
  intro s w hrun hpc hstrict hwf _
  refine ⟨_, rfl, ?_⟩
  have hplaced : Reads (s.withFetchWord 16 w) s.pc (BitVec.ofNat 16 (w % 2 ^ 16)) (s.withFetchWord 16 w) :=
    .inl ⟨hpc, (Memory.read_write_same _ _ _ hwf).symm, rfl⟩
  exact (stepRunsTheDecodedInstruction (s.withFetchWord 16 w) hrun rfl).1 _ _ hplaced
    (by simp [wordWellFormed, State.withFetchWord, hstrict])

/-- Settles O40: `whenRunning` guards the step. -/
theorem noStepInHaltedOrFaulted : Obligations.NoStepInHaltedOrFaulted := by
  refine fun s => ⟨fun h => ?_, fun r h => ?_, fun t h => (step_next s t h).1⟩ <;> simp [step, State.whenRunning, h]

/-! ### Progress -/

theorem exec_answers (i : Instr) (s : State) : ∃ t, exec i s = .next t := by
  by_cases hi : ∀ v, i ≠ .trap v
  · obtain ⟨_, -, t, ht, -⟩ := exec_instrFrame s hi
    exact ⟨t, ht⟩
  · obtain ⟨v, rfl⟩ := not_forall_not.1 hi
    obtain ⟨t, ht, -⟩ := execTrap_routineFrame v s
    exact ⟨t, ht⟩

/-- A step in RUNNING answers a next state, or STRICT_DECODE refuses the word it fetched (R65). -/
theorem step_answers_or_refuses {s : State} (hrun : s.run = .running) :
    (∃ t, step s = .next t) ∨ s.params.strictDecode = true ∧ ∃ w, step s = .refused (.strictDecode w) := by
  cases hr : s.routine with
  | some r =>
    obtain ⟨t, ht, -⟩ := resumeRoutine_routineFrame r s.resumed
    exact .inl ⟨t, (step_of_routine hrun hr).trans ht⟩
  | none =>
    obtain ⟨w, s', hw⟩ | hd := reads_or_denied s s.pc
    · rw [step_of_reads hrun hr hw, State.acceptWord, hw.params_eq]
      split
      next => exact .inl (exec_answers _ _)
      next hill => exact .inr ⟨by simp_all [wordWellFormed], w, rfl⟩
    · exact .inl ⟨_, step_of_denied hrun hr hd⟩

theorem step_answers {s : State} (hrun : s.run = .running) (hstrict : s.params.strictDecode = false) :
    ∃ t, step s = .next t :=
  (step_answers_or_refuses hrun).resolve_right (by simp [hstrict])

/-- Settles O58: `exec_answers`, and the gates of `step` add no stop but STRICT_DECODE's refusal. -/
theorem noInstructionStops : Obligations.NoInstructionStops := by
  refine ⟨exec_answers, fun s => step_answers, fun s f h hrun => ?_⟩
  obtain ⟨t, ht⟩ | ⟨-, w, hw⟩ := step_answers_or_refuses hrun <;> simp_all

theorem CanWait.consoleIn {C : Prop} {s : State} {r : Routine} (h : CanWait C s r)
    (ha : s.params.deviceAttached = false) : r.seen = true ∧ C ∧ s.consoleIn = [] := by
  cases r with
  | getc | inEcho => exact ⟨rfl, h⟩
  | puts | putsp => exact absurd (ha.symm.trans h) (by decide)

/-- Where a routine with no device attached ends: complete, or in a readChar with no value ready. -/
theorem RoutineFrame.routine_absent {C H : Prop} {s t : State} (h : RoutineFrame C H s t) (hnone : s.routine = none)
    (ha : s.params.deviceAttached = false) :
    t.routine = none ∨ ∃ r, t.routine = some r ∧ r.seen = true ∧ s.consoleIn = [] := by
  refine h.routine.imp (·.trans hnone) ?_
  rintro ⟨r, hr, hwait, -⟩
  obtain ⟨hseen, -, hin⟩ := hwait.consoleIn ha
  exact ⟨r, hr, hseen, hin⟩

theorem step_routine_absent {s t : State} (h : step s = .next t) (ha : s.params.deviceAttached = false) :
    t.routine = none ∨ ∃ r, t.routine = some r ∧ r.seen = true ∧ s.consoleIn = [] := by
  cases (step_effect h).2 with
  | resumed _ h => exact h.routine_absent rfl ha
  | fetchFault hr _ ht =>
    subst ht
    exact .inl hr
  | trap hnone _ _ h => exact h.routine_absent hnone ha
  | instr hnone _ _ h => exact .inl (h.routine.trans hnone)

/-- With no device attached, and a value ready where the instruction reads a character, no instruction leaves the engine
suspended. -/
theorem exec_completes {i : Instr} {s : State} (ha : s.params.deviceAttached = false)
    (hin : s.consoleIn ≠ [] ∨ (i ≠ .trap 0x20#8 ∧ i ≠ .trap 0x23#8)) :
    Answers (exec i s) (·.routine = s.routine) := by
  by_cases hi : ∀ v, i ≠ .trap v
  · obtain ⟨_, -, hans⟩ := exec_instrFrame s hi
    exact hans.imp fun t h => h.routine
  · obtain ⟨v, rfl⟩ := not_forall_not.1 hi
    refine (execTrap_routineFrame v s).imp fun t h => h.routine.resolve_right ?_
    rintro ⟨r, -, hwait, -⟩
    obtain ⟨-, hchar, hempty⟩ := hwait.consoleIn ha
    obtain hready | ⟨h20, h23⟩ := hin
    · exact hready hempty
    · exact hchar.elim (h20 <| congrArg _ ·) (h23 <| congrArg _ ·)

/-- Settles O52: a routine is left suspended only by a scan with a device or by a readChar with no value ready
(`CanWait`). -/
theorem everyInstructionCompletesWithoutADevice : Obligations.EveryInstructionCompletesWithoutADevice := by
  refine ⟨fun i s => exec_completes, fun s hrun ha hstrict hin => ?_⟩
  obtain ⟨t, ht⟩ := step_answers hrun hstrict
  refine ⟨t, ht, (step_routine_absent ht ha).resolve_right ?_⟩
  rintro ⟨_, -, -, hempty⟩
  exact hin hempty

/-! ### The wait in readChar -/

/-- What a suspended GETC or IN does with its character: IN's echo, then R0 and CC. -/
theorem charArrives_writeReg {s u : State} (c : Word) (echo : List Word) (hregs : u.regs = s.regs)
    (hkeeps : RoutineKeeps s u) (hrun : u.run = s.run) (hr : u.routine = none) :
    CharArrives s ((u.writeChars echo).writeReg 0#3 c) c := by
  rw [State.writeChars_eq]
  refine ⟨hkeeps, State.readReg_writeReg_same _ _ _, ccShows_ccOf c, fun q hq => ?_, hrun, hr⟩
  rw [State.readReg_writeReg_ne _ _ _ _ (by simpa using hq)]
  exact State.readReg_congr hregs q

/-- A step in a state suspended in a readChar: it takes a ready value, or the host's answer, or waits on. -/
theorem step_of_awaitChar {s : State} {r : Routine} (hrun : s.run = .running) (hr : s.routine = some r)
    (echo : Word → List Word) {k : Word → State → Result} (hresume : resumeRoutine r s.resumed = s.resumed.awaitChar r k)
    (hk : ∀ c u, k c u = .next ((u.writeChars (echo c)).writeReg 0#3 c)) :
    (∀ c rest, s.consoleIn = c :: rest → ∃ t, step s = .next t ∧ CharArrives s t c ∧ t.consoleIn = rest ∧
      t.consoleOut = s.consoleOut ++ echo c ∧ t.draws = s.draws) ∧
    (∀ c, s.consoleIn = [] → Config.consoleAnswer s.draws = some c → ∃ t, step s = .next t ∧ CharArrives s t c ∧
      t.consoleIn = [] ∧ t.consoleOut = s.consoleOut ++ echo c ∧ t.draws = s.draws + 1) ∧
    (s.consoleIn = [] → Config.consoleAnswer s.draws = none → step s = .next { s with draws := s.draws + 1 }) := by
  have hstep := (step_of_routine hrun hr).trans hresume
  refine ⟨fun c rest hin => ?_, fun c hin hc => ?_, fun hin hc => ?_⟩
  · rw [State.awaitChar_ready s.resumed r c rest k hin, hk] at hstep
    refine ⟨_, hstep, charArrives_writeReg c (echo c) rfl ⟨rfl, fun _ => rfl, rfl, rfl⟩ rfl rfl, ?_⟩
    simp [State.writeChars_eq]
  · rw [State.awaitChar_drawn s.resumed r c k hin hc, hk] at hstep
    refine ⟨_, hstep, charArrives_writeReg c (echo c) rfl ⟨rfl, fun _ => rfl, rfl, rfl⟩ rfl rfl, ?_⟩
    simp [State.writeChars_eq, hin]
  · rw [State.awaitChar_silent s.resumed r k hin hc] at hstep
    simp [hstep, State.suspend, State.drawn, State.resumed, hr]

/-- Settles O57: the step resumes the routine (`step_of_routine`), whose readChar takes a ready value, an answer, or none
(`awaitChar_ready`, `awaitChar_drawn`, `awaitChar_silent`). -/
theorem suspendedReadCharGoesOn : Obligations.SuspendedReadCharGoesOn := by
  refine fun s hrun => ⟨fun hr => ?_, fun hr => ?_⟩
  · obtain ⟨hready, hdrawn, hsilent⟩ := step_of_awaitChar hrun hr (fun _ => []) (k := fun c u => .next (u.writeReg 0#3 c))
      rfl fun _ _ => rfl
    simp only [List.append_nil] at hready hdrawn
    refine ⟨hready, fun hin => ?_⟩
    split
    next c hc => exact hdrawn c hin hc
    next hc => exact hsilent hin hc
  · obtain ⟨hready, hdrawn, hsilent⟩ := step_of_awaitChar hrun hr (fun c => [c])
      (k := fun c u => .next ((u.writeChar c).writeReg 0#3 c)) rfl fun _ _ => rfl
    refine ⟨hready, fun hin => ?_⟩
    split
    next c hc => exact hdrawn c hin hc
    next hc => exact hsilent hin hc

/-! ### What a host sees -/

theorem State.hostView_ne_none {s : State} (h : s.seen = true) : s.hostView ≠ none := by
  simp [State.hostView_of_seen s h]

theorem HostStep.seen_right {s t : State} (h : HostStep s t) : t.seen = true := by
  induction h with
  | seen _ ht => exact ht
  | unseen _ _ _ ih => exact ih

/-- The engine goes one way: step is a function, and whether it has got to a seen point is decided there. -/
theorem HostStep.unique {s t t' : State} (h : HostStep s t) (h' : HostStep s t') : t' = t := by
  induction h with
  | seen hstep hseen =>
    obtain ⟨-, rfl⟩ | ⟨hunseen, -⟩ := (HostStep.of_step hstep).1 h'
    · rfl
    · simp [hseen] at hunseen
  | unseen hstep hunseen _ ih =>
    obtain ⟨hseen, -⟩ | ⟨-, hrest⟩ := (HostStep.of_step hstep).1 h'
    · simp [hseen] at hunseen
    · exact ih hrest

/-- What a host sees of a state is its fields, and a wait exactly in GETC and IN. -/
theorem State.hostView_fields {s : State} {v : HostView} (h : s.hostView = some v) :
    v.regs = s.regs ∧ v.pc = s.pc ∧ v.cc = s.cc ∧ v.mem = s.mem ∧ v.run = s.run ∧ v.consoleOut = s.consoleOut ∧
      v.deviceOut = s.deviceOut ∧ (v.waiting = true ↔ (s.routine = some .getc ∨ s.routine = some .inEcho)) ∧
      (v.waiting = false ↔ s.routine = none) := by
  have hseen : s.seen = true := by
    by_contra hunseen
    rw [s.hostView_eq_none.2 (by simpa using hunseen)] at h
    cases h
  rw [s.hostView_of_seen hseen] at h
  cases h
  refine ⟨rfl, rfl, rfl, rfl, rfl, rfl, rfl, ?_⟩
  unfold State.seen at hseen
  cases hr : s.routine with
  | none => simp
  | some r => cases r <;> simp_all [Routine.seen]

/-- Settles O59: a HostStep ends where a host sees (`HostStep.seen_right`), goes one way (`HostStep.unique`), and without
a device a step ends inside no scan (`step_routine_absent`). -/
theorem hostSeesNoPointInsideAStepButTheWait : Obligations.HostSeesNoPointInsideAStepButTheWait := by
  refine ⟨fun s => ⟨s.hostView_eq_none.trans s.seen_eq_false, fun v => State.hostView_fields⟩,
    fun s t h => State.hostView_ne_none h.seen_right, fun s t t' => HostStep.unique, fun s hrun ha hstrict => ?_⟩
  obtain ⟨t, ht⟩ := step_answers hrun hstrict
  refine ⟨t, ht, .seen ht ?_⟩
  obtain hr | ⟨r, hr, hseen, -⟩ := step_routine_absent ht ha
  · simp [State.seen, hr]
  · simp [State.seen, hr, hseen]

/-! ### The start of a session -/

theorem ccLegal_ccReset {p : Params} (h : p.wf = true) : ccLegal p.ccReset = true := by
  simp_all [Params.wf, ccLegal, ccN, ccZ, ccP]

theorem loadWords_wf (image : List Byte) (a : Word) (m : Memory) (h : m.wf = true) : (loadWords image a m).wf = true := by
  induction image, a, m using loadWords.induct with
  | case1 low high rest a m ih => exact ih (Memory.wf_write m a _ h)
  | case2 a m image hshort =>
    rw [loadWords]
    · exact h
    · exact hshort

/-- An image that loads leaves memory in its canonical form. -/
theorem loadImage_wf {image : List Byte} {m m' : Memory} (h : loadImage image m = .ok m') (hm : m.wf = true) :
    m'.wf = true := by
  unfold loadImage at h
  split at h
  · split at h
    · cases h
    · split at h
      · cases h
      · cases h
        exact loadWords_wf _ _ _ hm
  · cases h

theorem State.initial_inv {p : Params} {m : Memory} (hp : p.wf = true) (hm : m.wf = true) : (State.initial p m).Inv :=
  ⟨hm, ccLegal_ccReset hp, rfl⟩

/-- Settles O44: the load writes cell by cell (`loadImage_wf`), and CC_RESET is legal. -/
theorem sessionStartMeetsTheInvariant : Obligations.SessionStartMeetsTheInvariant := by
  refine ⟨State.initial_inv (by decide) rfl, fun p memInit image s hp hm h => ?_⟩
  unfold State.boot at h
  split at h
  next m hload =>
    cases h
    exact State.initial_inv hp (loadImage_wf hload hm)
  next => cases h

end Sys2Proof.Machine
end

section
/-! SUPPORT. The statements of spec/20_memory.md. What the stores do at a plain address, and LDR where its read succeeds,
is said once, as the next state each answers, so that what a store wrote is what the next fetch and the next LDR read
(R54, R56). What leaves memory and the device output alone is StoresNothing, and every instruction but the three stores
does so (R51). -/

namespace Sys2Proof.Machine

/-! ### What a store writes is read back -/

theorem exec_st_plain {sr : RegIdx} {off : BitVec 9} {s : State}
    (h : s.pc + 1#16 + signed off ∉ s.params.deviceAddrs) :
    exec (.st sr off) s = .next (s.advancePc.writeMem (s.pc + 1#16 + signed off) (s.readReg sr)) :=
  State.store_plain _ _ _ _ _ ((s.isDevice_false_iff _).2 h)

theorem exec_str_plain {sr base : RegIdx} {off : BitVec 6} {s : State}
    (h : s.readReg base + signed off ∉ s.params.deviceAddrs) :
    exec (.str sr base off) s = .next (s.advancePc.writeMem (s.readReg base + signed off) (s.readReg sr)) :=
  State.store_plain _ _ _ _ _ ((s.isDevice_false_iff _).2 h)

/-- STI stores where the pointer read says; that read may itself be a device's. -/
theorem exec_sti_plain {sr : RegIdx} {off : BitVec 9} {s s' : State} {p : Word}
    (hp : Reads s (s.pc + 1#16 + signed off) p s') (h : p ∉ s.params.deviceAddrs) :
    exec (.sti sr off) s = .next (s'.advancePc.writeMem p (s.readReg sr)) := by
  obtain ⟨hregs, -⟩ := hp.same
  calc exec (.sti sr off) s
    _ = s'.advancePc.store .sti s.pc p (s'.readReg sr) := load_of_reads (reads_advancePc hp) _ _ _
    _ = .next (s'.advancePc.writeMem p (s'.readReg sr)) :=
      State.store_plain _ _ _ _ _ ((s'.isDevice_false_iff p).2 (hp.params_eq ▸ h))
    _ = .next (s'.advancePc.writeMem p (s.readReg sr)) := by rw [State.readReg_congr hregs]

theorem exec_ldr_of_reads {dr base : RegIdx} {off : BitVec 6} {s s' : State} {v : Word}
    (h : Reads s (s.readReg base + signed off) v s') :
    exec (.ldr dr base off) s = .next (s'.advancePc.writeReg dr v) :=
  load_of_reads (reads_advancePc h) _ _ _

/-- Settles O54: STR's next state holds the value at the address LDR then reads (`Memory.read_write_same`). -/
theorem ldrReadsBackWhatStrStored : Obligations.LdrReadsBackWhatStrStored := by
  intro sr base dr off s hplain hwf
  have hread := Memory.read_write_same s.mem (s.readReg base + signed off) (s.readReg sr) hwf
  exact ⟨_, _, exec_str_plain hplain, exec_ldr_of_reads (.inl ⟨hplain, hread.symm, rfl⟩), writesReg_writeReg _ _ _⟩

/-- A step in RUNNING at a plain cell runs the instruction that the cell's word encodes (R31, R65). -/
theorem step_of_plain_pc {s : State} (hrun : s.run = .running) (hr : s.routine = none)
    (hpc : s.pc ∉ s.params.deviceAddrs) (hstrict : s.params.strictDecode = false) :
    step s = exec (decode (s.mem.read s.pc)) s := by
  rw [step_of_reads hrun hr (.inl ⟨hpc, rfl, rfl⟩), State.acceptWord_of_wellFormed (by simp [wordWellFormed, hstrict])]

/-- Settles O17: each of the three stores leaves v in the cell at a, which `step_of_plain_pc` then fetches. -/
theorem storeIsSeenByTheNextFetch : Obligations.StoreIsSeenByTheNextFetch := by
  intro i s t u a v hstore hplain hwf hstrict h humem huparams hrun hr hpc
  have hwritten : t.mem = s.mem.write a v ∧ t.params = s.params := by
    obtain ⟨sr, off, rfl, rfl, rfl⟩ | ⟨sr, base, off, rfl, rfl, rfl⟩ | ⟨sr, off, s', rfl, hp, rfl⟩ := hstore
    · cases (exec_st_plain hplain).symm.trans h
      exact ⟨rfl, rfl⟩
    · cases (exec_str_plain hplain).symm.trans h
      exact ⟨rfl, rfl⟩
    · cases (exec_sti_plain hp hplain).symm.trans h
      obtain ⟨-, -, -, hmem, -⟩ := hp.same
      exact ⟨congrArg (Memory.write · a _) hmem, hp.params_eq⟩
  obtain ⟨hmem, hparams⟩ := hwritten
  rw [← hparams, ← huparams] at hplain hstrict
  rw [step_of_plain_pc hrun hr (hpc ▸ hplain) hstrict, humem, hmem, hpc, Memory.read_write_same _ _ _ hwf]

/-! ### Who writes memory -/

/-- From s to t no cell was written and nothing went to the device. -/
def StoresNothing (s t : State) : Prop := t.mem = s.mem ∧ t.deviceOut = s.deviceOut

theorem StoresNothing.sameMemory {s t : State} (h : StoresNothing s t) : SameMemory s t :=
  fun a => congrArg (Memory.read · a) h.1

/-- A read before the rest of the instruction changes the draws at most. -/
theorem StoresNothing.of_read {s s' t : State} (hs : s' = s ∨ s' = s.drawn) (h : StoresNothing s' t) :
    StoresNothing s t := by
  obtain rfl | rfl := hs <;> exact h

theorem StoresNothing.of_writeChars {s t : State} (cs : List Word) (h : StoresNothing (s.writeChars cs) t) :
    StoresNothing s t := by
  rwa [State.writeChars_eq] at h

theorem storesNothing_of_load {s t : State} {op : Opcode} {f a : Word} {k : Word → State → Result}
    (h : s.load op f a k = .next t) (hk : ∀ v s', k v s' = .next t → StoresNothing s' t) : StoresNothing s t := by
  obtain ⟨-, -, rfl⟩ | ⟨v, s', -, hs, h⟩ := s.load_next t op f a k h
  · exact ⟨rfl, rfl⟩
  · exact (hk v s' h).of_read hs

theorem storesNothing_of_awaitChar {s t : State} {r : Routine} {k : Word → State → Result}
    (h : s.awaitChar r k = .next t) (hk : ∀ c s', k c s' = .next t → StoresNothing s' t) : StoresNothing s t := by
  obtain ⟨c, s', ⟨rest, -, rfl⟩ | ⟨-, -, rfl⟩, e⟩ | ⟨-, -, e⟩ := s.awaitChar_cases r k <;> rw [e] at h
  · exact hk c (s.setReady rest) h
  · exact hk c s.drawn h
  · cases h
    exact ⟨rfl, rfl⟩

theorem storesNothing_of_writeReg {s t : State} {r : RegIdx} {v : Word}
    (h : .next (s.writeReg r v) = (.next t : Result)) : StoresNothing s t := by
  cases h
  exact ⟨rfl, rfl⟩

theorem ScanFrame.storesNothing {f : Word} {s t : State} (h : ScanFrame f s t) : StoresNothing s t :=
  ⟨h.mem, h.deviceOut⟩

theorem trapDispatch_storesNothing {v : BitVec 8} {f : Word} {s t : State} (h : trapDispatch v f s = .next t) :
    StoresNothing s t := by
  unfold trapDispatch at h
  split at h
  next => exact storesNothing_of_awaitChar h fun _ _ => storesNothing_of_writeReg
  next => cases h; exact ⟨rfl, rfl⟩
  next => exact (putsScan_frame _ _ _ _ _ h).storesNothing
  next =>
    exact .of_writeChars s.params.inPrompt <| storesNothing_of_awaitChar h fun c u hk =>
      storesNothing_of_writeReg (s := u.writeChar c) hk
  next => exact (putspScan_frame _ _ _ _ _ h).storesNothing
  next => cases h; exact .of_writeChars s.params.haltMessage ⟨rfl, rfl⟩
  next => cases h; exact ⟨rfl, rfl⟩

theorem execBr_storesNothing {nzp : BitVec 3} {off : BitVec 9} {s t : State} (h : execBr nzp off s = .next t) :
    StoresNothing s t := by
  unfold execBr at h
  dsimp only at h
  split at h <;> (cases h; exact ⟨rfl, rfl⟩)

/-- Settles O49: no instruction but the stores ends in a write: the loads end in WriteReg, TRAP in a routine
(`trapDispatch_storesNothing`). -/
theorem onlyStoresChangeMemory : Obligations.OnlyStoresChangeMemory := by
  intro i s t hst hsti hstr h
  suffices hnone : StoresNothing s t from ⟨hnone.sameMemory, hnone.2⟩
  cases i with
  | st sr off => exact absurd rfl (hst sr off)
  | sti sr off => exact absurd rfl (hsti sr off)
  | str sr base off => exact absurd rfl (hstr sr base off)
  | br nzp off => exact execBr_storesNothing h
  | addReg | addImm | andReg | andImm | notReg | lea | jmp | jsr | jsrr | rti | res =>
    cases h
    exact ⟨rfl, rfl⟩
  | ld | ldr => exact storesNothing_of_load (s := s.advancePc) h fun _ _ => storesNothing_of_writeReg
  | ldi =>
    exact storesNothing_of_load (s := s.advancePc) h fun _ _ hk =>
      storesNothing_of_load hk fun _ _ => storesNothing_of_writeReg
  | trap v => exact trapDispatch_storesNothing (s := s.advancePc.enterTrap) h

end Sys2Proof.Machine
end

section
/-! SUPPORT. The statements of spec/30_encoding.md. The decoder cuts a word into fields and the encoder appends fields, so
the statements about both rest on a few facts: a field of an appended word, adjacent fields as one field, and a field
under a mask that is all ones there. -/

namespace Sys2Proof.Machine

open Laws

/-! ### Opcodes and fields -/

theorem opcodeOf_opcodeBits (o : Opcode) : opcodeOf (opcodeBits o) = o := by cases o <;> rfl

theorem opcodeBits_opcodeOf (n : BitVec 4) : opcodeBits (opcodeOf n) = n := by revert n; decide

theorem opcodeBits_inj {o o' : Opcode} : opcodeBits o = opcodeBits o' ↔ o = o' :=
  (Function.LeftInverse.injective opcodeOf_opcodeBits).eq_iff

theorem opcodeBits_opcode (w : Word) : opcodeBits (opcode w) = field w 12 4 := opcodeBits_opcodeOf _

theorem opcodeBits_eq_field {w : Word} {o : Opcode} (h : opcode w = o) : opcodeBits o = field w 12 4 := by
  rw [← h, opcodeBits_opcode]

theorem opcode_encode (i : Instr) : opcode (encode i) = EncodeAssembled.opcodeOfInstr i := by
  rw [opcode, field, EncodeAssembled.encode_opcode, opcodeOf_opcodeBits]

theorem field_all (w : Word) : field w 0 16 = w := BitVec.extractLsb'_eq_self

/-- Two adjacent fields are one field. -/
theorem field_append_field {w : Word} {hi lo m n : Nat} (h : hi = lo + n) :
    field w hi m ++ field w lo n = field w lo (m + n) :=
  BitVec.extractLsb'_append_extractLsb'_eq_extractLsb' h

/-- A mode bit as a field of width one (R64). -/
theorem field_one (w : Word) (k : Nat) : field w k 1 = BitVec.ofBool (w.getLsbD k) := by
  apply BitVec.eq_of_getElem_eq
  intro j hj
  obtain rfl : j = 0 := by omega
  simp [field]

/-- A mask that is all ones at a field leaves the field alone. -/
theorem field_and_of_ones (w : Word) {m : Word} {lo n : Nat} (hm : field m lo n = BitVec.allOnes n) :
    field (w &&& m) lo n = field w lo n := by
  rw [field, BitVec.extractLsb'_and, ← field, ← field, hm, BitVec.and_allOnes]

/-! ### The round trip -/

/-- Settles O32: the decoder finds the opcode (`opcode_encode`), then the mode bit and the operands where the encoder
appended them. -/
theorem decodeOfEncodeIsTheInstruction : Obligations.DecodeOfEncodeIsTheInstruction := by
  intro i
  rw [decode, opcode_encode]
  cases i <;>
    simp only [EncodeAssembled.opcodeOfInstr, encode, fieldDR, fieldSR1, fieldSR2, field,
      BitVec.extractLsb'_append_eq_ite, BitVec.getLsbD_append] <;>
    simp

/-! ### The rows of the opcode table -/

theorem append_inj_iff {m n : Nat} {a c : BitVec m} {b d : BitVec n} : a ++ b = c ++ d ↔ a = c ∧ b = d := by
  refine ⟨fun h => ⟨?_, ?_⟩, fun ⟨ha, hb⟩ => ha ▸ hb ▸ rfl⟩
  · simpa only [BitVec.extractLsb'_append_eq_left] using congrArg (BitVec.extractLsb' n m) h
  · simpa only [BitVec.extractLsb'_append_eq_right] using congrArg (BitVec.extractLsb' 0 n) h

/-- A row whose mask is the opcode and the bits m below it: what its match asks of the word. -/
theorem meets_row_iff (w : Word) (o : Opcode) (m v : BitVec 12) :
    w &&& (BitVec.allOnes 4 ++ m) = opcodeBits o ++ v ↔ opcode w = o ∧ field w 0 12 &&& m = v := by
  have hw : field w 12 4 ++ field w 0 12 = w := BitVec.extractLsb'_append_extractLsb' (w := 4) (len := 12)
  calc w &&& (BitVec.allOnes 4 ++ m) = opcodeBits o ++ v
    _ ↔ (opcodeBits (opcode w) ++ field w 0 12) &&& (BitVec.allOnes 4 ++ m) = opcodeBits o ++ v := by
      rw [opcodeBits_opcode, hw]
    _ ↔ opcode w = o ∧ field w 0 12 &&& m = v := by
      rw [BitVec.and_append, BitVec.and_allOnes, append_inj_iff, opcodeBits_inj]

/-- A row whose mask is the opcode alone. -/
theorem meets_opcodeRow_iff (w : Word) (o : Opcode) : w &&& 0xF000#16 = opcodeBits o ++ 0x000#12 ↔ opcode w = o :=
  (meets_row_iff w o 0x000#12 0x000#12).trans (by simp)

/-- A row whose mask is the opcode and the mode bit k. -/
theorem meets_modeRow_iff (w : Word) (o : Opcode) (k : Nat) (hk : k < 12) (b : Bool) :
    w &&& (BitVec.allOnes 4 ++ BitVec.twoPow 12 k) = opcodeBits o ++ (if b then BitVec.twoPow 12 k else 0x000#12) ↔
      opcode w = o ∧ w.getLsbD k = b := by
  have hne : BitVec.twoPow 12 k ≠ 0x000#12 := fun h => by simpa [hk] using congrArg (BitVec.getLsbD · k) h
  have hbit : (field w 0 12).getLsbD k = w.getLsbD k := by simp [field, hk]
  rw [meets_row_iff, BitVec.and_twoPow, hbit]
  cases b <;> cases w.getLsbD k <;> simp [hne, hne.symm]

/-- Settles O31: a row's mask and match say the opcode (`meets_opcodeRow_iff`), and for ADD, AND and JSR the mode bit
(`meets_modeRow_iff`); the decoder goes by these. -/
theorem decoderSelectsTheTableRow : Obligations.DecoderSelectsTheTableRow := by
  intro w
  have hrow := meets_opcodeRow_iff w
  have hmode5 (o : Opcode) (b : Bool) := meets_modeRow_iff w o 5 (by decide) b
  have hmode11 (b : Bool) := meets_modeRow_iff w .jsr 11 (by decide) b
  refine ⟨(hrow .br).trans ?_, (hmode5 .add false).trans ?_, (hmode5 .add true).trans ?_, (hrow .ld).trans ?_,
    (hrow .st).trans ?_, (hmode11 true).trans ?_, (hmode11 false).trans ?_, (hmode5 .and false).trans ?_,
    (hmode5 .and true).trans ?_, (hrow .ldr).trans ?_, (hrow .str).trans ?_, (hrow .rti).trans ?_,
    (hrow .not).trans ?_, (hrow .ldi).trans ?_, (hrow .sti).trans ?_, (hrow .jmp).trans ?_, (hrow .res).trans ?_,
    (hrow .lea).trans ?_, (hrow .trap).trans ?_⟩
  -- What is left of each row is a fact about the decoder's match on the opcode and its test of the mode bit.
  all_goals cases h : opcode w <;> simp [decode, h, ite_eq_iff]

/-! ### Unread bits -/

/-- The bits of the word that the handler of an instruction does not read (R61, R65). -/
def unreadBits : Instr → Word
  | .addReg _ _ _ | .andReg _ _ _ => 0x0018#16
  | .jsrr _ => 0x063F#16
  | .rti | .res => 0x0FFF#16
  | .notReg _ _ => 0x003F#16
  | .jmp _ => 0x0E3F#16
  | .trap _ => 0x0F00#16
  | _ => 0x0000#16

theorem unreadMask_eq_unreadBits (w : Word) : unreadMask w = unreadBits (decode w) := by
  have hop : w.extractLsb' 12 4 = opcodeBits (opcode w) := (opcodeBits_opcode w).symm
  unfold unreadMask decode
  rw [hop]
  cases opcode w with
  | add | and => cases w.getLsbD 5 <;> rfl
  | jsr => cases w.getLsbD 11 <;> rfl
  | _ => rfl

theorem unreadAssembled_eq_ite (w : Word) :
    unreadAssembled w = if opcode w = .not then 0x003F#16 else 0x0000#16 := by
  rw [unreadAssembled, ← field, ← opcodeBits_opcode, show 0x9#4 = opcodeBits .not from rfl]
  simp only [opcodeBits_inj]

theorem assembledWord_iff (w : Word) :
    assembledWord w = true ↔ w &&& unreadBits (decode w) = if opcode w = .not then 0x003F#16 else 0x0000#16 := by
  rw [assembledWord, beq_iff_eq, unreadMask_eq_unreadBits, unreadAssembled_eq_ite]

/-- Every word of the encoder passes the check of STRICT_DECODE: one lemma of EncodeAssembled for each constructor. -/
theorem assembledWord_encode : ∀ i : Instr, assembledWord (encode i) = true
  | .br nzp off => EncodeAssembled.br nzp off
  | .addReg dr sr1 sr2 => EncodeAssembled.addReg dr sr1 sr2
  | .addImm dr sr1 imm => EncodeAssembled.addImm dr sr1 imm
  | .ld dr off => EncodeAssembled.ld dr off
  | .st sr off => EncodeAssembled.st sr off
  | .jsr off => EncodeAssembled.jsr off
  | .jsrr base => EncodeAssembled.jsrr base
  | .andReg dr sr1 sr2 => EncodeAssembled.andReg dr sr1 sr2
  | .andImm dr sr1 imm => EncodeAssembled.andImm dr sr1 imm
  | .ldr dr base off => EncodeAssembled.ldr dr base off
  | .str sr base off => EncodeAssembled.str sr base off
  | .rti => EncodeAssembled.rti
  | .notReg dr sr => EncodeAssembled.notReg dr sr
  | .ldi dr off => EncodeAssembled.ldi dr off
  | .sti sr off => EncodeAssembled.sti sr off
  | .jmp base => EncodeAssembled.jmp base
  | .res => EncodeAssembled.res
  | .lea dr off => EncodeAssembled.lea dr off
  | .trap vect => EncodeAssembled.trap vect

/-- Where a mask of ones fixes the bits of a field, the field is that constant. -/
theorem eq_field_of_and_eq {w m u : Word} (h : w &&& m = u) {lo n : Nat} {c : BitVec n}
    (hm : field m lo n = BitVec.allOnes n) (hu : field u lo n = c) : c = field w lo n := by
  rw [← field_and_of_ones w hm, h, hu]

/-- An assembled word is the one its instruction encodes to: every constant that the encoder appends is the word's own
field, by the mode bit or by the unread bits' values, and the fields together are the word. -/
theorem encode_decode {w : Word} (h : assembledWord w = true) : encode (decode w) = w := by
  rw [assembledWord_iff] at h
  cases ho : opcode w with
  | br | ld | st | ldi | sti | lea | ldr | str =>
    simp (disch := rfl) only [decode, ho, encode, opcodeBits_eq_field ho, fieldDR, fieldSR1, field_append_field]
    exact field_all w
  | add | and =>
    cases hm : w.getLsbD 5 with
    | true =>
      have hmode : 1#1 = field w 5 1 := by rw [field_one, hm]; rfl
      simp (disch := rfl) only [decode, ho, hm, ↓reduceIte, encode, opcodeBits_eq_field ho, fieldDR, fieldSR1, hmode,
        field_append_field]
      exact field_all w
    | false =>
      simp only [decode, ho, hm, unreadBits, Bool.false_eq_true, ↓reduceIte, reduceCtorEq] at h ⊢
      have hmode : 0#3 = field w 5 1 ++ field w 3 2 := by
        rw [field_one, hm, ← eq_field_of_and_eq h rfl rfl]; rfl
      simp (disch := rfl) only [encode, opcodeBits_eq_field ho, fieldDR, fieldSR1, fieldSR2, hmode, field_append_field]
      exact field_all w
  | jsr =>
    cases hm : w.getLsbD 11 with
    | true =>
      have hmode : 1#1 = field w 11 1 := by rw [field_one, hm]; rfl
      simp (disch := rfl) only [decode, ho, hm, ↓reduceIte, encode, opcodeBits_eq_field ho, hmode, field_append_field]
      exact field_all w
    | false =>
      simp only [decode, ho, hm, unreadBits, Bool.false_eq_true, ↓reduceIte, reduceCtorEq] at h ⊢
      have hmode : 0#3 = field w 11 1 ++ field w 9 2 := by
        rw [field_one, hm, ← eq_field_of_and_eq h rfl rfl]; rfl
      have hlow : 0#6 = field w 0 6 := eq_field_of_and_eq h rfl rfl
      simp (disch := rfl) only [encode, opcodeBits_eq_field ho, fieldSR1, hmode, hlow, field_append_field]
      exact field_all w
  | jmp =>
    simp only [decode, ho, unreadBits, ↓reduceIte, reduceCtorEq] at h ⊢
    have hhigh : 0#3 = field w 9 3 := eq_field_of_and_eq h rfl rfl
    have hlow : 0#6 = field w 0 6 := eq_field_of_and_eq h rfl rfl
    simp (disch := rfl) only [encode, opcodeBits_eq_field ho, fieldSR1, hhigh, hlow, field_append_field]
    exact field_all w
  | not =>
    simp only [decode, ho, unreadBits, ↓reduceIte] at h ⊢
    have hlow : 0b111111#6 = field w 0 6 := eq_field_of_and_eq h rfl rfl
    simp (disch := rfl) only [encode, opcodeBits_eq_field ho, fieldDR, fieldSR1, hlow, field_append_field]
    exact field_all w
  | trap =>
    simp only [decode, ho, unreadBits, ↓reduceIte, reduceCtorEq] at h ⊢
    have hzero : 0#4 = field w 8 4 := eq_field_of_and_eq h rfl rfl
    simp (disch := rfl) only [encode, opcodeBits_eq_field ho, hzero, field_append_field]
    exact field_all w
  | rti | res =>
    simp only [decode, ho, unreadBits, ↓reduceIte, reduceCtorEq] at h ⊢
    have hzero : 0#12 = field w 0 12 := eq_field_of_and_eq h rfl rfl
    simp (disch := rfl) only [encode, opcodeBits_eq_field ho, hzero, field_append_field]
    exact field_all w

/-- Settles O33: `encode_decode` one way, `assembledWord_encode` the other. -/
theorem assembledWordsAreTheEncodersWords : Obligations.AssembledWordsAreTheEncodersWords :=
  fun w => ⟨encode_decode, fun h => h ▸ assembledWord_encode (decode w)⟩

/-! ### Words that differ in unread bits only -/

section
variable {w w' m : Word} (h : w &&& m = w' &&& m)
include h

/-- Words that agree under a mask have the same fields where the mask is all ones. -/
theorem field_congr {lo n : Nat} (hm : field m lo n = BitVec.allOnes n) : field w' lo n = field w lo n := by
  rw [← field_and_of_ones w' hm, ← h, field_and_of_ones w hm]

theorem getLsbD_congr {k : Nat} (hm : m.getLsbD k = true) : w'.getLsbD k = w.getLsbD k := by
  simpa only [BitVec.getLsbD_and, hm, Bool.and_true] using congrArg (BitVec.getLsbD · k) h.symm

end

theorem eq_of_and_not_zero {w w' : Word} (h : w &&& ~~~ 0x0000#16 = w' &&& ~~~ 0x0000#16) : w' = w := by
  have hall : field w' 0 16 = field w 0 16 := field_congr h rfl
  rwa [field_all, field_all] at hall

/-- The opcode is never among the unread bits (R60). -/
theorem field_not_unreadBits (i : Instr) : field (~~~ unreadBits i) 12 4 = BitVec.allOnes 4 := by
  cases i <;> (dsimp only [unreadBits]; rfl)

/-- The decoder looks at the read bits only: the opcode, the mode bit and the operands of the format are among them. -/
theorem decode_congr {w w' : Word} (h : w &&& ~~~ unreadBits (decode w) = w' &&& ~~~ unreadBits (decode w)) :
    decode w' = decode w := by
  have hop : opcode w' = opcode w := congrArg opcodeOf (field_congr h (field_not_unreadBits _))
  cases ho : opcode w with
  | br | ld | st | ldi | sti | lea | ldr | str =>
    simp only [decode, ho, unreadBits] at h
    rw [eq_of_and_not_zero h]
  | add | and =>
    cases hm : w.getLsbD 5 with
    | true =>
      simp only [decode, ho, hm, ↓reduceIte, unreadBits] at h
      rw [eq_of_and_not_zero h]
    | false =>
      simp only [decode, ho, hm, Bool.false_eq_true, ↓reduceIte, unreadBits] at h
      have hm' : w'.getLsbD 5 = false := (getLsbD_congr h rfl).trans hm
      simp only [decode, hop, ho, hm, hm', Bool.false_eq_true, ↓reduceIte, fieldDR, fieldSR1, fieldSR2]
      rw [field_congr h rfl, field_congr h rfl, field_congr h rfl]
  | jsr =>
    cases hm : w.getLsbD 11 with
    | true =>
      simp only [decode, ho, hm, ↓reduceIte, unreadBits] at h
      rw [eq_of_and_not_zero h]
    | false =>
      simp only [decode, ho, hm, Bool.false_eq_true, ↓reduceIte, unreadBits] at h
      have hm' : w'.getLsbD 11 = false := (getLsbD_congr h rfl).trans hm
      simp only [decode, hop, ho, hm, hm', Bool.false_eq_true, ↓reduceIte, fieldSR1]
      rw [field_congr h rfl]
  | rti | res => simp only [decode, hop, ho]
  | jmp | trap =>
    simp only [decode, hop, ho, unreadBits, fieldSR1] at h ⊢
    rw [field_congr h rfl]
  | not =>
    simp only [decode, hop, ho, unreadBits, fieldDR, fieldSR1] at h ⊢
    rw [field_congr h rfl, field_congr h rfl]

theorem State.acceptWord_of_illFormed {s : State} {w : Word} (h : wordWellFormed s.params.strictDecode w = false)
    (k : Result) : s.acceptWord w k = .refused (.strictDecode w) := if_neg (by simp [h])

/-- Only STRICT_DECODE refuses: outside RUNNING a step answers a fault, and in RUNNING `step_answers`. -/
theorem step_ne_refused {s : State} (hstrict : s.params.strictDecode = false) (r : Refusal) : step s ≠ .refused r := by
  obtain ⟨hhalted, hfaulted, -⟩ := noStepInHaltedOrFaulted s
  cases hrun : s.run with
  | running =>
    obtain ⟨t, ht⟩ := step_answers hrun hstrict
    simp [ht]
  | halted => simp [hhalted hrun]
  | faulted record => simp [hfaulted record hrun]

/-- Settles O34: `decode_congr`, and the step's check of the fetched word under either value of STRICT_DECODE. -/
theorem unreadBitsAreIgnoredOrRefused : Obligations.UnreadBitsAreIgnoredOrRefused := by
  refine ⟨fun w w' h => ?_, fun s s' w hrun hr hstrict hw => ?_, fun s r hstrict => step_ne_refused hstrict r⟩
  · rw [unreadMask_eq_unreadBits] at h
    exact decode_congr h
  · have hcheck : wordWellFormed s'.params.strictDecode w = assembledWord w := by
      rw [hw.params_eq, hstrict, wordWellFormed, Bool.not_true, Bool.false_or]
    rw [step_of_reads hrun hr hw]
    exact ⟨fun hill => State.acceptWord_of_illFormed (hcheck.trans hill) _,
      fun hwell => State.acceptWord_of_wellFormed (hcheck.trans hwell) _⟩

/-! ### The words without flags, and the words of the test vectors -/

/-- A word below 0x0200 is a BR that asks for no flag (R74). -/
theorem decode_of_lt {w : Word} (h : w.toNat < 0x200) : decode w = .br 0b000#3 (field w 0 9) := by
  have hop : field w 12 4 = 0x0#4 := BitVec.eq_of_toNat_eq <|
    (field_toNat w 12 4).trans (show w.toNat / 2 ^ 12 % 2 ^ 4 = 0 by omega)
  have hnzp : field w 9 3 = 0b000#3 := BitVec.eq_of_toNat_eq <|
    (field_toNat w 9 3).trans (show w.toNat / 2 ^ 9 % 2 ^ 3 = 0 by omega)
  have hbr : opcode w = .br := congrArg opcodeOf hop
  simp only [decode, hbr, hnzp]

theorem ccMeets_zero (cc : BitVec 3) : ccMeets 0b000#3 cc = false := by simp [ccMeets]

/-- Settles O36: a BR that asks for no flag is never taken (`ccMeets_zero`). -/
theorem wordsWithoutFlagsAreNoOps : Obligations.WordsWithoutFlagsAreNoOps := by
  intro w s h
  rw [decode_of_lt h]
  exact if_neg (by simp [ccMeets_zero])

/-- Settles O35: each of the ten words is decoded by evaluation. -/
theorem vectorWordsDecode : Obligations.VectorWordsDecode := by
  unfold Obligations.VectorWordsDecode
  decide

end Sys2Proof.Machine
end

section
/-! SUPPORT. The statements of spec/40_operate.md. Every operate instruction is State.operate of its own value, so what
ADD, AND and NOT do beside that value is said once (operate_answers); what is left of each statement is its word's decode
and its value. -/

namespace Sys2Proof.Machine

/-! ### Decode -/

/-- The opcode number in w[15:12] is the opcode the decoder goes by (R60, R70). -/
theorem opcode_of_extractLsb' {w : Word} {o : Opcode} (h : w.extractLsb' 12 4 = opcodeBits o) : opcode w = o :=
  (congrArg opcodeOf h).trans (opcodeOf_opcodeBits o)

/-! ### What an operate instruction does -/

/-- State.operate answers a next state; PC is PC(next) there, and the one other effect is WriteReg (R23, R24). -/
theorem operate_answers (s : State) (dr : RegIdx) (v : Word) :
    Answers (s.operate dr v) fun t => t.pc = s.pc + 1#16 ∧ WritesReg s t dr v :=
  ⟨_, rfl, rfl, writesReg_writeReg s dr v⟩

theorem exec_addReg (dr sr1 sr2 : RegIdx) (s : State) :
    exec (.addReg dr sr1 sr2) s = s.operate dr (s.readReg sr1 + s.readReg sr2) := rfl

theorem exec_addImm (dr sr1 : RegIdx) (imm5 : BitVec 5) (s : State) :
    exec (.addImm dr sr1 imm5) s = s.operate dr (s.readReg sr1 + signed imm5) := rfl

theorem exec_andReg (dr sr1 sr2 : RegIdx) (s : State) :
    exec (.andReg dr sr1 sr2) s = s.operate dr (s.readReg sr1 &&& s.readReg sr2) := rfl

theorem exec_andImm (dr sr1 : RegIdx) (imm5 : BitVec 5) (s : State) :
    exec (.andImm dr sr1 imm5) s = s.operate dr (s.readReg sr1 &&& signed imm5) := rfl

theorem exec_notReg (dr sr : RegIdx) (s : State) : exec (.notReg dr sr) s = s.operate dr (~~~ s.readReg sr) := rfl

/-! ### The values -/

/-- Addition of words is the sum modulo 65536 (R9). -/
theorem ofNat_add_mod (x y : Word) : BitVec.ofNat 16 ((x.toNat + y.toNat) % 65536) = x + y := by
  apply BitVec.eq_of_toNat_eq
  rw [BitVec.toNat_ofNat, BitVec.toNat_add, Nat.mod_mod]

/-- The complement of a word is its difference to 65535. -/
theorem ofNat_sub_toNat (x : Word) : BitVec.ofNat 16 (65535 - x.toNat) = ~~~ x := by
  apply BitVec.eq_of_toNat_eq
  rw [BitVec.toNat_ofNat, BitVec.toNat_not]
  omega

/-- Adding the complement and one subtracts (R83). -/
theorem add_not_add_one (x y : Word) : x + (~~~ y + signed 1#5) = x - y := by
  have hone : signed 1#5 = 1#16 := by decide
  rw [hone, ← BitVec.neg_eq_not_add, BitVec.sub_eq_add_neg]

/-! ### The statements -/

/-- Settles O1: the opcode and the mode bit pick the format, and both modes are State.operate of the sum. -/
theorem addWritesSumModulo65536 : Obligations.AddWritesSumModulo65536 := by
  refine ⟨fun w h => ?_, fun dr sr1 sr2 s => ?_, fun dr sr1 imm5 s => ?_⟩
  · have hop : opcode w = .add := opcode_of_extractLsb' h
    rw [decode, hop]
    rfl
  · rw [exec_addReg, ofNat_add_mod]
    exact operate_answers s dr _
  · rw [exec_addImm, ofNat_add_mod]
    exact operate_answers s dr _

/-- Settles O2: the opcode and the mode bit pick the format, and both modes are State.operate of the conjunction. -/
theorem andWritesBitwiseConjunction : Obligations.AndWritesBitwiseConjunction := by
  refine ⟨fun w h => ?_, fun dr sr1 sr2 s => ?_, fun dr sr1 imm5 s => ?_⟩
  · have hop : opcode w = .and := opcode_of_extractLsb' h
    rw [decode, hop]
    rfl
  · rw [exec_andReg]
    exact operate_answers s dr _
  · rw [exec_andImm]
    exact operate_answers s dr _

/-- Settles O3: NOT is State.operate of the complement, which is the difference to 65535 (`ofNat_sub_toNat`). -/
theorem notWritesComplement : Obligations.NotWritesComplement := by
  refine ⟨fun w h => ?_, fun dr sr s => ?_⟩
  · have hop : opcode w = .not := opcode_of_extractLsb' h
    rw [decode, hop]
    rfl
  · rw [exec_notReg, ofNat_sub_toNat]
    exact operate_answers s dr _

/-- Settles O4: NOT and ADD #1 leave the negated b in b and, a being another register, a as it was; the last ADD adds
the two (`add_not_add_one`). -/
theorem subtractionFromNotAddAdd : Obligations.SubtractionFromNotAddAdd := by
  intro a b d s hab
  obtain ⟨t, ht, -, htb, -, htkeep, -⟩ := operate_answers s b (~~~ s.readReg b)
  obtain ⟨u, hu, -, hub, -, hukeep, -⟩ := operate_answers t b (t.readReg b + signed 1#5)
  obtain ⟨v, hv, -, hvd, hcc, -⟩ := operate_answers u d (u.readReg a + u.readReg b)
  have ha : a ∉ [b] := mt List.mem_singleton.1 hab
  have hua : u.readReg a = s.readReg a := (hukeep a ha).trans (htkeep a ha)
  have hdiff : u.readReg a + u.readReg b = s.readReg a - s.readReg b := by
    rw [hua, hub, htb, add_not_add_one]
  rw [hdiff] at hvd hcc
  exact ⟨t, u, v, (exec_notReg b b s).trans ht, (exec_addImm b b 1#5 t).trans hu, (exec_addReg d a b u).trans hv,
    hvd, hcc⟩

end Sys2Proof.Machine
end

section
/-! SUPPORT. The statements of spec/41_control.md. The next state of each control transfer is said once, as setPc after
nothing (BR, JMP) or after the WriteReg of the link (JSR, JSRR); what setPc leaves alone then gives the frames, and the
link that JSR, JSRR and TRAP leave in R7 is what RET reads back (R94). -/

namespace Sys2Proof.Machine

/-! ### What a control transfer answers -/

/-- BR's condition is that some requested flag is set (R90). -/
theorem ccMeets_iff {nzp cc : BitVec 3} : ccMeets nzp cc = true ↔ nzp &&& cc ≠ 0b000#3 := bne_iff_ne

theorem exec_br_taken {nzp : BitVec 3} {s : State} (h : nzp &&& s.cc ≠ 0b000#3) (off : BitVec 9) :
    exec (.br nzp off) s = .next (s.setPc (s.pc + 1#16 + signed off)) := if_pos (ccMeets_iff.2 h)

theorem exec_br_not_taken {nzp : BitVec 3} {s : State} (h : nzp &&& s.cc = 0b000#3) (off : BitVec 9) :
    exec (.br nzp off) s = .next (s.setPc (s.pc + 1#16)) := if_neg fun hmet => ccMeets_iff.1 hmet h

theorem exec_jmp (base : RegIdx) (s : State) : exec (.jmp base) s = .next (s.setPc (s.readReg base)) := rfl

theorem exec_jsr (off : BitVec 11) (s : State) :
    exec (.jsr off) s = .next ((s.writeReg 7#3 (s.pc + 1#16)).setPc (s.pc + 1#16 + signed off)) := rfl

/-- JSRR's target is read off the state that already holds the link (R93). -/
theorem exec_jsrr (base : RegIdx) (s : State) :
    exec (.jsrr base) s =
      .next ((s.writeReg 7#3 (s.pc + 1#16)).setPc ((s.writeReg 7#3 (s.pc + 1#16)).readReg base)) := rfl

/-! ### What it leaves unchanged -/

theorem writesOnlyPc_setPc (s : State) (target : Word) : WritesOnlyPc s (s.setPc target) :=
  ⟨fun _ _ => rfl, rfl, fun _ => rfl, rfl, rfl, rfl, rfl, rfl, rfl, rfl⟩

/-- WriteReg and then a jump: WritesReg says nothing of PC. -/
theorem writesReg_setPc (s : State) (r : RegIdx) (v target : Word) : WritesReg s ((s.writeReg r v).setPc target) r v :=
  writesReg_writeReg s r v

/-- What a register reads after WriteReg, whichever it is. -/
theorem State.readReg_writeReg (s : State) (r q : RegIdx) (v : Word) :
    (s.writeReg r v).readReg q = if q = r then v else s.readReg q := by
  split
  next h => rw [h, State.readReg_writeReg_same]
  next h => exact State.readReg_writeReg_ne s r q v h

/-! ### The link in R7 -/

/-- TRAP's routine keeps R7, or writes R0 beside it (GETC and IN): the link of the entry stands (R120). -/
theorem exec_trap_link {v : BitVec 8} {s t : State} (h : exec (.trap v) s = .next t) : t.readReg 7#3 = s.pc + 1#16 := by
  obtain ⟨hregs, -⟩ | ⟨-, hset⟩ := ((execTrap_routineFrame v s).of_eq h).regs
  · rw [State.readReg_congr hregs]
    exact State.readReg_writeReg_same _ _ _
  · obtain ⟨-, hlink, -⟩ := trap_char_regs hset
    exact hlink

/-- Every call leaves the address of the instruction after it in R7 (R92, R93, R120). -/
theorem exec_call_link {i : Instr} {s t : State}
    (hi : (∃ off, i = .jsr off) ∨ (∃ base, i = .jsrr base) ∨ ∃ v, i = .trap v) (h : exec i s = .next t) :
    t.readReg 7#3 = s.pc + 1#16 := by
  obtain ⟨off, rfl⟩ | ⟨base, rfl⟩ | ⟨v, rfl⟩ := hi
  · cases h
    exact State.readReg_writeReg_same _ _ _
  · cases h
    exact State.readReg_writeReg_same _ _ _
  · exact exec_trap_link h

/-! ### The statements -/

/-- Settles O7: the mode bit picks JSR, whose next state is the link and then the jump (`exec_jsr`). -/
theorem jsrLinksAndJumpsPcRelative : Obligations.JsrLinksAndJumpsPcRelative := by
  refine ⟨fun w h hmode => ?_, fun off s => ⟨_, exec_jsr off s, writesReg_setPc _ _ _ _, rfl⟩⟩
  have hop : opcode w = .jsr := opcode_of_extractLsb' h
  rw [decode, hop]
  exact if_pos hmode

/-- Settles O8: the mode bit picks JSRR, whose target is read after the link is written (`exec_jsrr`), so that R7 reads
as the link and every other register as before. -/
theorem jsrrReadsBaseAfterTheLinkWrite : Obligations.JsrrReadsBaseAfterTheLinkWrite := by
  refine ⟨fun w h hmode => ?_,
    fun base s => ⟨_, exec_jsrr base s, writesReg_setPc _ _ _ _, s.readReg_writeReg 7#3 base _⟩⟩
  have hop : opcode w = .jsr := opcode_of_extractLsb' h
  rw [decode, hop]
  exact if_neg (Bool.eq_false_iff.1 hmode)

/-- Settles O9: JMP R7 goes to what R7 holds, which is the link of the call (`exec_call_link`). -/
theorem retReturnsAfterTheCall : Obligations.RetReturnsAfterTheCall := fun _ _ _ u hi h hkept =>
  ⟨_, exec_jmp 7#3 u, hkept.trans (exec_call_link hi h), writesOnlyPc_setPc u _⟩

/-- Settles O5: BR is a jump either way, to the target or to PC(next) (`exec_br_taken`, `exec_br_not_taken`). -/
theorem brTakenWhenARequestedFlagIsSet : Obligations.BrTakenWhenARequestedFlagIsSet := by
  refine ⟨fun w h => ?_, fun nzp off s => ?_⟩
  · have hop : opcode w = .br := opcode_of_extractLsb' h
    rw [decode, hop]
    rfl
  · split
    next hflag => exact ⟨_, exec_br_taken hflag off, writesOnlyPc_setPc s _, rfl⟩
    next hflag => exact ⟨_, exec_br_not_taken (not_not.1 hflag) off, writesOnlyPc_setPc s _, rfl⟩

/-- Settles O6: the opcode picks JMP, which is a jump to what BaseR holds (`exec_jmp`). -/
theorem jmpSetsPcFromBaseRegister : Obligations.JmpSetsPcFromBaseRegister := by
  refine ⟨fun w h => ?_, fun base s => ⟨_, exec_jmp base s, writesOnlyPc_setPc s _, rfl⟩⟩
  have hop : opcode w = .jmp := opcode_of_extractLsb' h
  rw [decode, hop]
  rfl

end Sys2Proof.Machine
end

section
/-! SUPPORT. The statements of spec/42_loadstore.md. All but LEA are one or two accesses of the state after the PC
increment (exec_ld, exec_sti, ...), so what an access that succeeds or is denied leaves is said once, for every
instruction that makes it: a load ends in WriteReg (load_writesReg), a store writes (store_stores), a denied access
raises UnimplementedDevice (load_deviceFault, store_deviceFault; R44, R45, R151). -/

namespace Sys2Proof.Machine

/-! ### The accesses of each instruction -/

theorem exec_ld (dr : RegIdx) (off : BitVec 9) (s : State) :
    exec (.ld dr off) s =
      s.advancePc.load .ld s.pc (s.pc + 1#16 + signed off) fun v s' => .next (s'.writeReg dr v) := rfl

theorem exec_ldi (dr : RegIdx) (off : BitVec 9) (s : State) :
    exec (.ldi dr off) s =
      s.advancePc.load .ldi s.pc (s.pc + 1#16 + signed off) fun p s' =>
        s'.load .ldi s.pc p fun v s'' => .next (s''.writeReg dr v) := rfl

theorem exec_ldr (dr base : RegIdx) (off : BitVec 6) (s : State) :
    exec (.ldr dr base off) s =
      s.advancePc.load .ldr s.pc (s.readReg base + signed off) fun v s' => .next (s'.writeReg dr v) := rfl

theorem exec_lea (dr : RegIdx) (off : BitVec 9) (s : State) :
    exec (.lea dr off) s = .next (s.advancePc.writeReg dr (s.pc + 1#16 + signed off)) := rfl

theorem exec_st (sr : RegIdx) (off : BitVec 9) (s : State) :
    exec (.st sr off) s = s.advancePc.store .st s.pc (s.pc + 1#16 + signed off) (s.readReg sr) := rfl

theorem exec_sti (sr : RegIdx) (off : BitVec 9) (s : State) :
    exec (.sti sr off) s =
      s.advancePc.load .sti s.pc (s.pc + 1#16 + signed off) fun p s' => s'.store .sti s.pc p (s'.readReg sr) := rfl

theorem exec_str (sr base : RegIdx) (off : BitVec 6) (s : State) :
    exec (.str sr base off) s = s.advancePc.store .str s.pc (s.readReg base + signed off) (s.readReg sr) := rfl

/-! ### The pointer read of LDI and STI -/

theorem exec_ldi_of_reads {dr : RegIdx} {off : BitVec 9} {s s' : State} {p : Word}
    (hp : Reads s (s.pc + 1#16 + signed off) p s') :
    exec (.ldi dr off) s = s'.advancePc.load .ldi s'.pc p fun v s'' => .next (s''.writeReg dr v) := by
  rw [exec_ldi, load_of_reads (reads_advancePc hp), hp.pc_eq]

/-- The pointer read leaves SR as it was. -/
theorem exec_sti_of_reads {sr : RegIdx} {off : BitVec 9} {s s' : State} {p : Word}
    (hp : Reads s (s.pc + 1#16 + signed off) p s') :
    exec (.sti sr off) s = s'.advancePc.store .sti s'.pc p (s.readReg sr) := by
  obtain ⟨hregs, -⟩ := hp.same
  rw [exec_sti, load_of_reads (reads_advancePc hp), hp.pc_eq, State.readReg_advancePc, State.readReg_congr hregs]

/-- A denial after a read says that no device is attached, and so that the read drew nothing from the host. -/
theorem Reads.eq_of_denied {s s' : State} {a b v : Word} (h : Reads s a v s') (hd : Denied s' b) : s' = s := by
  have habsent : s.params.deviceAttached = false := h.params_eq ▸ hd.2
  obtain ⟨-, -, hs⟩ | ⟨-, hattached, -⟩ := h
  · exact hs
  · exact absurd (habsent.symm.trans hattached) Bool.false_ne_true

/-! ### What an access leaves -/

/-- A load whose read succeeds ends in WriteReg, PC being PC(next) (R24, R44). -/
theorem load_writesReg {s s' : State} {a v : Word} (h : Reads s a v s') (op : Opcode) (f : Word) (dr : RegIdx) :
    Answers (s.advancePc.load op f a fun v s' => .next (s'.writeReg dr v)) fun t =>
      t.pc = s.pc + 1#16 ∧ WritesReg s' t dr v :=
  ⟨_, load_of_reads (reads_advancePc h) _ _ _, congrArg (· + 1#16) h.pc_eq, writesReg_writeReg s' dr v⟩

/-- A fault inside a handler leaves all but the run state as the PC increment did (D21). -/
theorem deviceFault_raise (s : State) (a : Word) (access : Access) (op : BitVec 4) :
    DeviceFault s (s.advancePc.raise (.unimplementedDevice a access (some op)) s.pc) a access op :=
  ⟨rfl, rfl, fun _ _ => rfl, rfl, fun _ => rfl, rfl, rfl, rfl, rfl, rfl, rfl⟩

theorem load_deviceFault {s : State} {a : Word} (h : Denied s a) (op : Opcode) (k : Word → State → Result) :
    Answers (s.advancePc.load op s.pc a k) fun t => DeviceFault s t a .read (opcodeBits op) :=
  ⟨_, load_of_denied (s := s.advancePc) h _ _ _, deviceFault_raise s a .read _⟩

theorem store_deviceFault {s : State} {a : Word} (h : Denied s a) (op : Opcode) (v : Word) :
    Answers (s.advancePc.store op s.pc a v) fun t => DeviceFault s t a .write (opcodeBits op) :=
  ⟨_, store_of_denied (s := s.advancePc) h _ _ _, deviceFault_raise s a .write _⟩

/-- A store that is not denied writes the cell of a plain address, or sends the pair to the device (R45). -/
theorem store_stores {s : State} {a : Word} (h : ¬ Denied s a) (op : Opcode) (f v : Word) :
    Answers (s.advancePc.store op f a v) fun t => Stores s t a v := by
  obtain ⟨hdev, e⟩ | ⟨hdev, ha, e⟩ | ⟨hdev, ha, -⟩ := s.advancePc.store_cases op f a v
  · exact ⟨_, e, rfl, fun _ _ => rfl, rfl, rfl, rfl, rfl, rfl, rfl, rfl, .inl ⟨(s.isDevice_false_iff a).1 hdev,
      Memory.read_write_same s.mem a v, fun b hb => Memory.read_write_ne s.mem a b v hb.symm, rfl⟩⟩
  · exact ⟨_, e, rfl, fun _ _ => rfl, rfl, rfl, rfl, rfl, rfl, rfl, rfl,
      .inr ⟨(s.isDevice_iff a).1 hdev, ha, fun _ => rfl, rfl⟩⟩
  · exact absurd ⟨(s.isDevice_iff a).1 hdev, ha⟩ h

/-! ### The statements -/

/-- Settles O10: LD is one load (`exec_ld`), whose read succeeds or is denied. -/
theorem ldLoadsThePcRelativeCell : Obligations.LdLoadsThePcRelativeCell := by
  refine ⟨fun w h => ?_, fun dr off s => ⟨fun v s' hv => ?_, fun hd => ?_⟩⟩
  · rw [decode, opcode_of_extractLsb' (o := .ld) h]
    rfl
  · rw [exec_ld]
    exact load_writesReg hv .ld s.pc dr
  · rw [exec_ld]
    exact load_deviceFault hd .ld _

/-- Settles O11: after the pointer read LDI is one load at the pointer (`exec_ldi_of_reads`), denied only where the
pointer read left the state as it was (`Reads.eq_of_denied`). -/
theorem ldiLoadsThroughThePointerCell : Obligations.LdiLoadsThroughThePointerCell := by
  refine ⟨fun w h => ?_, fun dr off s => ⟨fun p s1 v s2 hp hv => ?_, fun hd => ?_, fun p s1 hp hd => ?_⟩⟩
  · rw [decode, opcode_of_extractLsb' (o := .ldi) h]
    rfl
  · rw [exec_ldi_of_reads hp, ← hp.pc_eq]
    exact load_writesReg hv .ldi s1.pc dr
  · rw [exec_ldi]
    exact load_deviceFault hd .ldi _
  · rw [exec_ldi_of_reads hp, ← hp.eq_of_denied hd]
    exact load_deviceFault hd .ldi _

/-- Settles O12: LDR is one load (`exec_ldr`), whose address is taken from BaseR before the write. -/
theorem ldrLoadsTheBasePlusOffsetCell : Obligations.LdrLoadsTheBasePlusOffsetCell := by
  refine ⟨fun w h => ?_, fun dr base off s => ⟨fun v s' hv => ?_, fun hd => ?_⟩⟩
  · rw [decode, opcode_of_extractLsb' (o := .ldr) h]
    rfl
  · rw [exec_ldr]
    exact load_writesReg hv .ldr s.pc dr
  · rw [exec_ldr]
    exact load_deviceFault hd .ldr _

/-- Settles O13: LEA is WriteReg of the address (`exec_lea`), with no access before it. -/
theorem leaWritesTheAddressAndReadsNoMemory : Obligations.LeaWritesTheAddressAndReadsNoMemory := by
  refine ⟨fun w h => ?_, fun dr off s => ⟨_, exec_lea dr off s, rfl, writesReg_writeReg s dr _⟩⟩
  rw [decode, opcode_of_extractLsb' (o := .lea) h]
  rfl

/-- Settles O14: ST is one store (`exec_st`), which is denied or writes. -/
theorem stStoresAtThePcRelativeCell : Obligations.StStoresAtThePcRelativeCell := by
  refine ⟨fun w h => ?_, fun sr off s => ⟨fun hd => ?_, fun hd => ?_⟩⟩
  · rw [decode, opcode_of_extractLsb' (o := .st) h]
    rfl
  · rw [exec_st]
    exact store_stores hd .st s.pc _
  · rw [exec_st]
    exact store_deviceFault hd .st _

/-- Settles O15: after the pointer read STI is one store at the pointer (`exec_sti_of_reads`), denied only where the
pointer read left the state as it was (`Reads.eq_of_denied`). -/
theorem stiStoresThroughThePointerCell : Obligations.StiStoresThroughThePointerCell := by
  refine ⟨fun w h => ?_, fun sr off s => ⟨fun p s1 hp hd => ?_, fun hd => ?_, fun p s1 hp hd => ?_⟩⟩
  · rw [decode, opcode_of_extractLsb' (o := .sti) h]
    rfl
  · rw [exec_sti_of_reads hp]
    exact store_stores hd .sti s1.pc _
  · rw [exec_sti]
    exact load_deviceFault hd .sti _
  · rw [exec_sti_of_reads hp, ← hp.eq_of_denied hd]
    exact store_deviceFault hd .sti _

/-- Settles O16: STR is one store (`exec_str`), which is denied or writes; SR and BaseR are read before it. -/
theorem strStoresAtTheBasePlusOffsetCell : Obligations.StrStoresAtTheBasePlusOffsetCell := by
  refine ⟨fun w h => ?_, fun sr base off s => ⟨fun hd => ?_, fun hd => ?_⟩⟩
  · rw [decode, opcode_of_extractLsb' (o := .str) h]
    rfl
  · rw [exec_str]
    exact store_stores hd .str s.pc _
  · rw [exec_str]
    exact store_deviceFault hd .str _

end Sys2Proof.Machine
end

section
/-! SUPPORT. The statements of spec/43_trap.md. What TRAP's entry leaves is said once for every routine (TrapKeepsRegs,
TrapWritesR0), and so is what GETC and IN do with their readChar (exec_of_awaitChar). PUTS and PUTSP are one loop
(StringTrap) that differs in where it ends and what it writes, so how a scan runs over the words it reads, and that it
ends, faults or is suspended after a lap, is proved once for both. -/

namespace Sys2Proof.Machine

/-! ### What TRAP leaves -/

/-- Whatever the routine, TRAP's entry stands (R120, R129). -/
theorem trapEntered_of_exec {v : BitVec 8} {s t : State} (h : exec (.trap v) s = .next t) : TrapEntered s t := by
  have hframe := (execTrap_routineFrame v s).of_eq h
  have hstores : StoresNothing s t := trapDispatch_storesNothing (s := s.advancePc.enterTrap) h
  exact ⟨hframe.pc, exec_trap_link h, hstores.sameMemory, hstores.2, hframe.params⟩

/-- The entry, and then a routine that writes no register. -/
theorem trapKeepsRegs_of_regsKept {s t : State} (hpc : t.pc = s.pc + 1#16) (hkept : RegsKept s.advancePc.enterTrap t)
    (hstores : StoresNothing s t) (hparams : t.params = s.params) : TrapKeepsRegs s t := by
  obtain ⟨hregs, hcc⟩ := hkept
  refine ⟨⟨hpc, ?_, hstores.sameMemory, hstores.2, hparams⟩, hcc ▸ ccShows_ccOf _, fun q hq => ?_⟩
  · rw [State.readReg_congr hregs]
    exact State.readReg_writeReg_same _ _ _
  · rw [State.readReg_congr hregs]
    exact State.readReg_writeReg_ne _ _ _ _ (by simpa using hq)

theorem trapKeepsRegs_of_exec {v : BitVec 8} {s t : State} (h : exec (.trap v) s = .next t)
    (hkept : RegsKept s.advancePc.enterTrap t) : TrapKeepsRegs s t := by
  obtain ⟨hpc, -, -, -, hparams⟩ := trapEntered_of_exec h
  exact trapKeepsRegs_of_regsKept hpc hkept (trapDispatch_storesNothing (s := s.advancePc.enterTrap) h) hparams

/-- The entry, and then a routine that puts c into R0. -/
theorem trapWritesR0_of_exec {v : BitVec 8} {s t : State} {c : Word} (h : exec (.trap v) s = .next t)
    (hregs : t.regs = (s.advancePc.enterTrap.writeReg 0#3 c).regs) (hcc : t.cc = ccOf c) : TrapWritesR0 s t c := by
  obtain ⟨-, -, hrest⟩ := trap_char_regs ⟨c, hregs, hcc⟩
  refine ⟨trapEntered_of_exec h, ?_, hcc ▸ ccShows_ccOf c, hrest⟩
  rw [State.readReg_congr hregs, State.readReg_writeReg_same]

/-- Settles O25: the frame of the routine (`execTrap_routineFrame`) after the entry, R0 being written only where the
vector's routine reads a character. -/
theorem trapRoutinesChangeOnlyR7AndR0 : Obligations.TrapRoutinesChangeOnlyR7AndR0 := by
  intro v s t h
  have hframe := (execTrap_routineFrame v s).of_eq h
  refine ⟨trapEntered_of_exec h, ?_, fun h20 h23 => ?_, hframe.run⟩
  · obtain hkept | ⟨-, hset⟩ := hframe.regs
    · obtain ⟨-, -, hrest⟩ := trapKeepsRegs_of_exec h hkept
      exact fun q hq => hrest q (by simp_all)
    · obtain ⟨-, -, hrest⟩ := trap_char_regs hset
      exact hrest
  · have hkept := hframe.regs.resolve_right fun ⟨hchar, _⟩ => hchar.elim h20 h23
    obtain ⟨-, -, hrest⟩ := trapKeepsRegs_of_exec h hkept
    exact hrest 0#3 (by decide)

/-! ### Vectors outside the table, OUT and HALT -/

theorem exec_trap_unrecognized {v : BitVec 8} (hv : v.toNat < 0x20 ∨ 0x25 < v.toNat) (s : State) :
    exec (.trap v) s = .next (s.advancePc.enterTrap.raise (.unrecognizedTrapVector v) s.pc) := by
  change trapDispatch v s.pc s.advancePc.enterTrap = _
  unfold trapDispatch
  split
  case h_7 => rfl
  all_goals omega

/-- Settles O18: the opcode picks TRAP, and no row of the trap table is the vector's (`exec_trap_unrecognized`). -/
theorem trapWithUnrecognizedVectorFaults : Obligations.TrapWithUnrecognizedVectorFaults := by
  refine ⟨fun w h => ?_, fun v s hv => ?_⟩
  · rw [decode, opcode_of_extractLsb' (o := .trap) h]
    rfl
  · have h := exec_trap_unrecognized hv s
    exact ⟨_, h, trapKeepsRegs_of_exec h ⟨rfl, rfl⟩, rfl, rfl, rfl, rfl, rfl, rfl, rfl, rfl⟩

theorem exec_trap_out (s : State) :
    exec (.trap 0x21#8) s = .next (s.advancePc.enterTrap.writeChar (s.readReg 0#3)) := by
  change Host.Outcome.next (s.advancePc.enterTrap.writeChar (s.advancePc.enterTrap.readReg 0#3)) = _
  rw [State.enterTrap, State.readReg_writeReg_ne _ _ _ _ (by decide), State.readReg_advancePc]

/-- Settles O20: OUT is the entry and one writeChar of R0, which the entry does not write (`exec_trap_out`). -/
theorem outWritesR0ToTheConsole : Obligations.OutWritesR0ToTheConsole := fun s =>
  have h := exec_trap_out s
  ⟨_, h, trapKeepsRegs_of_exec h ⟨rfl, rfl⟩, rfl, rfl, rfl, rfl, rfl⟩

theorem exec_trap_halt (s : State) :
    exec (.trap 0x25#8) s =
      .next { s.advancePc.enterTrap with run := .halted, consoleOut := s.consoleOut ++ s.params.haltMessage } := by
  change Host.Outcome.next (s.advancePc.enterTrap.writeChars s.params.haltMessage).halt = _
  rw [State.writeChars_eq]
  rfl

/-- Settles O24: HALT is the entry, the message and the halt (`exec_trap_halt`). -/
theorem haltEntersHaltedWithoutFault : Obligations.HaltEntersHaltedWithoutFault := fun s =>
  have h := exec_trap_halt s
  ⟨_, h, trapKeepsRegs_of_exec h ⟨rfl, rfl⟩, rfl, rfl, rfl, rfl, rfl, rfl, rfl⟩

/-! ### GETC and IN -/

/-- TRAP with a routine that writes `prompt`, reads a character, and puts it, echoed or not, into R0: readChar takes a
ready value, or the host's answer, or the engine stays suspended. -/
theorem exec_of_awaitChar {v : BitVec 8} {s : State} {r : Routine} (prompt : List Word) (echo : Word → List Word)
    {k : Word → State → Result}
    (hexec : exec (.trap v) s = { s.advancePc.enterTrap with consoleOut := s.consoleOut ++ prompt }.awaitChar r k)
    (hk : ∀ c u, k c u = .next ((u.writeChars (echo c)).writeReg 0#3 c)) :
    (∀ c rest, s.consoleIn = c :: rest → ∃ t, exec (.trap v) s = .next t ∧ TrapWritesR0 s t c ∧ t.run = s.run ∧
      t.consoleIn = rest ∧ t.consoleOut = s.consoleOut ++ prompt ++ echo c ∧ t.draws = s.draws ∧
      t.routine = s.routine) ∧
    (∀ c, s.consoleIn = [] → Config.consoleAnswer s.draws = some c → ∃ t, exec (.trap v) s = .next t ∧
      TrapWritesR0 s t c ∧ t.run = s.run ∧ t.consoleIn = [] ∧ t.consoleOut = s.consoleOut ++ prompt ++ echo c ∧
      t.draws = s.draws + 1 ∧ t.routine = s.routine) ∧
    (s.consoleIn = [] → Config.consoleAnswer s.draws = none → ∃ t, exec (.trap v) s = .next t ∧ TrapKeepsRegs s t ∧
      t.run = s.run ∧ t.consoleIn = [] ∧ t.consoleOut = s.consoleOut ++ prompt ∧ t.draws = s.draws + 1 ∧
      t.routine = some r) := by
  simp only [State.writeChars_eq] at hk
  refine ⟨fun c rest hin => ?_, fun c hin hc => ?_, fun hin hc => ?_⟩
  · have h := hexec.trans <| .trans (State.awaitChar_ready _ r c rest k hin) (hk _ _)
    exact ⟨_, h, trapWritesR0_of_exec h rfl rfl, rfl, rfl, rfl, rfl, rfl⟩
  · have h := hexec.trans <| .trans (State.awaitChar_drawn _ r c k hin hc) (hk _ _)
    exact ⟨_, h, trapWritesR0_of_exec h rfl rfl, rfl, hin, rfl, rfl, rfl⟩
  · have h := hexec.trans (State.awaitChar_silent _ r k hin hc)
    exact ⟨_, h, trapKeepsRegs_of_exec h ⟨rfl, rfl⟩, rfl, hin, rfl, rfl, rfl⟩

theorem exec_trap_getc (s : State) : exec (.trap 0x20#8) s =
    { s.advancePc.enterTrap with consoleOut := s.consoleOut ++ [] }.awaitChar .getc
      fun c u => .next (u.writeReg 0#3 c) := by
  rw [List.append_nil]
  rfl

theorem exec_trap_in (s : State) : exec (.trap 0x23#8) s =
    { s.advancePc.enterTrap with consoleOut := s.consoleOut ++ s.params.inPrompt }.awaitChar .inEcho
      fun c u => .next ((u.writeChar c).writeReg 0#3 c) := by
  change trapInEcho (s.advancePc.enterTrap.writeChars s.params.inPrompt) = _
  rw [State.writeChars_eq]
  rfl

/-- Settles O19: GETC is a readChar after the entry, without prompt or echo (`exec_of_awaitChar`). -/
theorem getcPutsTheReadCharacterInR0 : Obligations.GetcPutsTheReadCharacterInR0 := by
  intro s
  obtain ⟨hready, hdrawn, hsilent⟩ := exec_of_awaitChar [] (fun _ => []) (exec_trap_getc s) fun _ _ => rfl
  simp only [List.append_nil] at hready hdrawn hsilent
  refine ⟨hready, fun hin => ?_⟩
  split
  next c hc => exact hdrawn c hin hc
  next hc => exact hsilent hin hc

/-- Settles O22: IN is a readChar after the entry and the prompt, with an echo (`exec_of_awaitChar`). -/
theorem inEchoesAndPutsTheCharacterInR0 : Obligations.InEchoesAndPutsTheCharacterInR0 := by
  intro s
  obtain ⟨hready, hdrawn, hsilent⟩ := exec_of_awaitChar s.params.inPrompt (fun c => [c]) (exec_trap_in s) fun _ _ => rfl
  refine ⟨hready, fun hin => ?_⟩
  split
  next c hc => exact hdrawn c hin hc
  next hc => exact hsilent hin hc

/-! ### Reads from states that differ beside memory -/

/-- MemRead answers the same from both states: memory, the parameters and the number of the next draw agree (R44). -/
structure SameReads (s u : State) : Prop where
  mem : u.mem = s.mem
  params : u.params = s.params
  draws : u.draws = s.draws

/-- What a scan changes until it ends, faults or is suspended: the draws it made and the words it wrote. -/
def State.scanned (u : State) (draws : Nat) (out : List Word) : State :=
  { u with draws := draws, consoleOut := u.consoleOut ++ out }

theorem State.scanned_nil (u : State) : u.scanned u.draws [] = u := by simp [State.scanned]

theorem State.scanned_scanned (u : State) (d d' : Nat) (out out' : List Word) :
    (u.scanned d out).scanned d' out' = u.scanned d' (out ++ out') := by simp [State.scanned]

theorem Reads.of_sameReads {s s' u : State} {a v : Word} (h : Reads s a v s') (hu : SameReads s u) :
    Reads u a v { u with draws := s'.draws } := by
  obtain ⟨hmem, hparams, hdraws⟩ := hu
  obtain ⟨hplain, rfl, rfl⟩ | ⟨hdev, ha, rfl, rfl⟩ := h
  · exact .inl ⟨hparams ▸ hplain, hmem ▸ rfl, hdraws ▸ rfl⟩
  · exact .inr ⟨hparams ▸ hdev, hparams ▸ ha, hdraws ▸ rfl, hdraws ▸ rfl⟩

theorem Denied.of_params {s u : State} {a : Word} (h : Denied s a) (hu : u.params = s.params) : Denied u a := by
  rwa [Denied, hu]

theorem ReadsAll.same {s s' : State} {a : Word} {cs : List Word} (h : ReadsAll s a cs s') :
    s'.mem = s.mem ∧ s'.params = s.params := by
  induction cs generalizing s a with
  | nil =>
    cases h
    exact ⟨rfl, rfl⟩
  | cons c cs ih =>
    obtain ⟨s1, hc, hcs⟩ := h
    obtain ⟨-, -, -, hmem, -, -, -, -, hparams, -⟩ := hc.same
    exact (ih hcs).imp (·.trans hmem) (·.trans hparams)

/-- After the same reads, whatever was written to the console, the next read agrees as well. -/
theorem SameReads.scanned {s s' u : State} {a : Word} {cs : List Word} (hu : SameReads s u) (h : ReadsAll s a cs s')
    (out : List Word) : SameReads s' (u.scanned s'.draws out) :=
  ⟨hu.mem.trans h.same.1.symm, hu.params.trans h.same.2.symm, rfl⟩

/-- Where some read is denied no device is attached, and so no read draws from the host. -/
theorem ReadsAll.eq_of_denied {s s' : State} {a b : Word} {cs : List Word} (h : ReadsAll s a cs s')
    (hd : Denied s b) : s' = s := by
  induction cs generalizing s a with
  | nil => exact h
  | cons c cs ih =>
    obtain ⟨s1, hc, hcs⟩ := h
    have hd1 := hd.of_params hc.params_eq
    exact (ih hcs hd1).trans (hc.eq_of_denied hd1)

theorem add_one_add_ofNat (a : Word) (n : Nat) : a + 1#16 + BitVec.ofNat 16 n = a + BitVec.ofNat 16 (n + 1) := by
  rw [BitVec.ofNat_add, BitVec.add_assoc, BitVec.add_comm (1#16)]

theorem add_ofNat_scanLap (a : Word) : a + BitVec.ofNat 16 scanLap = a := BitVec.add_zero a

theorem readsAll_append {s t : State} {a : Word} {cs ds : List Word} :
    ReadsAll s a (cs ++ ds) t ↔ ∃ s', ReadsAll s a cs s' ∧ ReadsAll s' (a + BitVec.ofNat 16 cs.length) ds t := by
  induction cs generalizing s a with
  | nil => simp [ReadsAll]
  | cons c cs ih =>
    simp only [List.cons_append, ReadsAll, ih, List.length_cons, add_one_add_ofNat]
    constructor
    · rintro ⟨s1, hc, s', hcs, hds⟩
      exact ⟨s', ⟨s1, hc, hcs⟩, hds⟩
    · rintro ⟨s', ⟨s1, hc, hcs⟩, hds⟩
      exact ⟨s1, hc, s', hcs, hds⟩

theorem readsAll_singleton {s t : State} {a z : Word} : ReadsAll s a [z] t ↔ Reads s a z t := by
  simp [ReadsAll]

/-! ### The loop of PUTS and PUTSP -/

/-- The trap routines that write a string from memory (R124, R126). -/
inductive StringTrap where
  | puts
  | putsp

namespace StringTrap

def vector : StringTrap → BitVec 8
  | puts => 0x22#8
  | putsp => 0x24#8

/-- The routine's loop in the model. -/
def scan : StringTrap → Nat → Word → Word → State → Result
  | puts => putsScan
  | putsp => putspScan

/-- The routine the engine is suspended in inside the loop. -/
def routine : StringTrap → Word → Routine
  | puts => .puts
  | putsp => .putsp

/-- The words that end the string: the zero word, a word with a zero byte. -/
def Ends : StringTrap → Word → Prop
  | puts, z => z = 0x0000#16
  | putsp, z => z.toNat % 256 = 0 ∨ z.toNat / 256 = 0

/-- What the loop writes of a word that does not end the string. -/
def chars : StringTrap → Word → List Word
  | puts, c => [c]
  | putsp, c => packedBytes c

/-- What it writes of the word that does. -/
def last : StringTrap → Word → List Word
  | puts, _ => []
  | putsp, z => if z.toNat % 256 = 0 then [] else [BitVec.ofNat 16 (z.toNat % 256)]

variable {k : StringTrap} {s s' u : State} {f a : Word} {n : Nat}

theorem exec_trap (k : StringTrap) (s : State) :
    exec (.trap k.vector) s = k.scan scanLap s.pc (s.readReg 0#3) s.advancePc.enterTrap := by
  have hr0 : s.advancePc.enterTrap.readReg 0#3 = s.readReg 0#3 := State.readReg_writeReg_ne _ _ _ _ (by decide)
  rw [← hr0]
  cases k <;> rfl

theorem step_of_routine {s : State} (hrun : s.run = .running) (hr : s.routine = some (k.routine a)) :
    step s = k.scan scanLap (s.pc - 1#16) a s.resumed := by
  rw [Machine.step_of_routine hrun hr]
  cases k <;> rfl

theorem scan_zero : k.scan 0 f a u = .next (u.suspend (k.routine a)) := by cases k <;> rfl

theorem field_low_eq_zero (c : Word) : field c 0 8 = 0x00#8 ↔ c.toNat % 256 = 0 := by
  rw [← BitVec.toNat_inj, field_toNat]
  simp

theorem field_high_eq_zero (c : Word) : field c 8 8 = 0x00#8 ↔ c.toNat / 256 = 0 := by
  rw [← BitVec.toNat_inj, field_toNat, BitVec.toNat_ofNat]
  omega

theorem zext16_low (c : Word) : zext16 (field c 0 8) = BitVec.ofNat 16 (c.toNat % 256) := by
  apply BitVec.eq_of_toNat_eq
  rw [zext16_toNat _ (by omega), field_toNat, BitVec.toNat_ofNat]
  omega

theorem zext16_high (c : Word) : zext16 (field c 8 8) = BitVec.ofNat 16 (c.toNat / 256) := by
  apply BitVec.eq_of_toNat_eq
  rw [zext16_toNat _ (by omega), field_toNat, BitVec.toNat_ofNat]
  omega

/-- The loop reads a word that ends the string. -/
theorem scan_of_ends {c : Word} (h : Reads s a c s') (hu : SameReads s u) (hc : k.Ends c) :
    k.scan (n + 1) f a u = .next (u.scanned s'.draws (k.last c)) := by
  have hread := h.of_sameReads hu
  cases k with
  | puts =>
    rw [scan, putsScan, load_of_reads hread, if_pos (show c = 0x0000#16 from hc)]
    simp [State.scanned, last]
  | putsp =>
    rw [scan, putspScan, load_of_reads hread]
    simp only [field_low_eq_zero, field_high_eq_zero, zext16_low]
    split
    next hlow => simp [State.scanned, last, hlow]
    next hlow =>
      rw [if_pos (hc.resolve_left hlow)]
      simp [State.scanned, State.writeChar, last, hlow]

/-- The loop reads a word that does not. -/
theorem scan_of_goesOn {c : Word} (h : Reads s a c s') (hu : SameReads s u) (hc : ¬ k.Ends c) :
    k.scan (n + 1) f a u = k.scan n f (a + 1#16) (u.scanned s'.draws (k.chars c)) := by
  have hread := h.of_sameReads hu
  cases k with
  | puts =>
    rw [scan, putsScan, load_of_reads hread, if_neg (show ¬ c = 0x0000#16 from hc)]
    rfl
  | putsp =>
    obtain ⟨hlow, hhigh⟩ := not_or.1 hc
    rw [scan, putspScan, load_of_reads hread]
    simp only [field_low_eq_zero, field_high_eq_zero, zext16_low, zext16_high, if_neg hlow, if_neg hhigh]
    simp [State.scanned, State.writeChar, chars, packedBytes]

theorem scan_of_denied (h : Denied u a) : k.scan (n + 1) f a u =
    .next (u.raise (.unimplementedDevice a .read (some 0xF#4)) f) := by
  cases k <;> exact load_of_denied h .trap f _

/-! ### The loop over a string -/

/-- The loop over words that do not end the string: it has read and written them, and goes on behind them. -/
theorem scan_of_readsAll {cs : List Word} (h : ReadsAll s a cs s') (hu : SameReads s u) (hcs : ∀ c ∈ cs, ¬ k.Ends c)
    (n : Nat) : k.scan (cs.length + n) f a u =
      k.scan n f (a + BitVec.ofNat 16 cs.length) (u.scanned s'.draws (cs.flatMap k.chars)) := by
  induction cs generalizing s u a with
  | nil =>
    have hdraws : s'.draws = u.draws := by rw [hu.draws, h]
    simp [hdraws, State.scanned_nil]
  | cons c cs ih =>
    obtain ⟨s1, hc, hrest⟩ := h
    obtain ⟨hgo, hgoes⟩ := List.forall_mem_cons.1 hcs
    have hu1 := hu.scanned (readsAll_singleton.2 hc) (k.chars c)
    rw [List.length_cons, Nat.add_right_comm, scan_of_goesOn hc hu hgo, ih hrest hu1 hgoes, add_one_add_ofNat,
      State.scanned_scanned, List.flatMap_cons]

/-- The loop over a whole string that is shorter than its reads. -/
theorem scan_ended {cs : List Word} {z : Word} (h : ReadsAll s a (cs ++ [z]) s') (hu : SameReads s u)
    (hcs : ∀ c ∈ cs, ¬ k.Ends c) (hz : k.Ends z) (hlen : cs.length < n) :
    k.scan n f a u = .next (u.scanned s'.draws (cs.flatMap k.chars ++ k.last z)) := by
  obtain ⟨s1, hcs', hz'⟩ := readsAll_append.1 h
  obtain ⟨m, rfl⟩ := Nat.exists_eq_add_of_lt hlen
  rw [Nat.add_assoc, scan_of_readsAll hcs' hu hcs,
    scan_of_ends (readsAll_singleton.1 hz') (hu.scanned hcs' _) hz, State.scanned_scanned]

/-- The loop meets a device address with no device attached. -/
theorem scan_denied {cs : List Word} (h : ReadsAll s a cs s') (hu : SameReads s u) (hcs : ∀ c ∈ cs, ¬ k.Ends c)
    (hd : Denied s (a + BitVec.ofNat 16 cs.length)) (hlen : cs.length < n) :
    k.scan n f a u = .next ((u.scanned s'.draws (cs.flatMap k.chars)).raise
      (.unimplementedDevice (a + BitVec.ofNat 16 cs.length) .read (some 0xF#4)) f) := by
  obtain ⟨m, rfl⟩ := Nat.exists_eq_add_of_lt hlen
  rw [Nat.add_assoc, scan_of_readsAll h hu hcs, scan_of_denied (hd.of_params (u := u.scanned _ _) hu.params)]

/-- After a whole lap the loop is suspended at the address where the lap began. -/
theorem scan_lap {cs : List Word} (h : ReadsAll s a cs s') (hu : SameReads s u) (hcs : ∀ c ∈ cs, ¬ k.Ends c)
    (hlen : cs.length = scanLap) : k.scan scanLap f a u =
      .next ((u.scanned s'.draws (cs.flatMap k.chars)).suspend (k.routine a)) := by
  have hscan := (scan_of_readsAll h hu hcs 0).trans (scan_zero (f := f))
  rwa [hlen, add_ofNat_scanLap] at hscan

/-- What n reads from a on meet: words that do not end the string, all n of them or up to a denied address or a word that
ends it. -/
theorem readsAll_cases (k : StringTrap) (s : State) (a : Word) (n : Nat) :
    ∃ cs s', (∀ c ∈ cs, ¬ k.Ends c) ∧
      ((∃ z, k.Ends z ∧ ReadsAll s a (cs ++ [z]) s' ∧ cs.length < n) ∨
       (ReadsAll s a cs s' ∧ Denied s (a + BitVec.ofNat 16 cs.length) ∧ cs.length < n) ∨
       (ReadsAll s a cs s' ∧ cs.length = n)) := by
  induction n generalizing s a with
  | zero => exact ⟨[], s, by simp, .inr (.inr ⟨rfl, rfl⟩)⟩
  | succ n ih =>
    obtain ⟨c, s1, hc⟩ | hd := reads_or_denied s a
    · by_cases hends : k.Ends c
      · exact ⟨[], s1, by simp, .inl ⟨c, hends, readsAll_singleton.2 hc, Nat.succ_pos n⟩⟩
      · obtain ⟨cs, s', hcs, hcases⟩ := ih s1 (a + 1#16)
        refine ⟨c :: cs, s', List.forall_mem_cons.2 ⟨hends, hcs⟩, ?_⟩
        rw [List.length_cons, ← add_one_add_ofNat, Nat.add_lt_add_iff_right, Nat.add_right_cancel_iff]
        obtain ⟨z, hz, hall, hlen⟩ | ⟨hall, hd, hlen⟩ | ⟨hall, hlen⟩ := hcases
        · exact .inl ⟨z, hz, ⟨s1, hc, hall⟩, hlen⟩
        · exact .inr (.inl ⟨⟨s1, hc, hall⟩, hd.of_params hc.params_eq.symm, hlen⟩)
        · exact .inr (.inr ⟨⟨s1, hc, hall⟩, hlen⟩)
    · exact ⟨[], s, by simp, .inr (.inl ⟨rfl, by simpa using hd, Nat.succ_pos n⟩)⟩

/-! ### From the loop to TRAP and to a step -/

theorem scan_frame {t : State} (h : k.scan n f a u = .next t) : ScanFrame f u t := by
  cases k with
  | puts => exact putsScan_frame n f a u t h
  | putsp => exact putspScan_frame n f a u t h

/-- What the loop answers from the entry on, TRAP answers, and it keeps the registers. -/
theorem exec_of_scan {P : State → Prop}
    (h : Answers (k.scan scanLap s.pc (s.readReg 0#3) s.advancePc.enterTrap) P) :
    ∃ t, exec (.trap k.vector) s = .next t ∧ TrapKeepsRegs s t ∧ t.consoleIn = s.consoleIn ∧ P t := by
  obtain ⟨t, ht, hP⟩ := h
  have hexec := (k.exec_trap s).trans ht
  have hframe := scan_frame ht
  exact ⟨t, hexec, trapKeepsRegs_of_exec hexec ⟨hframe.regs, hframe.cc⟩, hframe.consoleIn, hP⟩

/-- What the loop answers from where it is suspended, a step answers, and it writes no register and no flag. -/
theorem step_of_scan {P : State → Prop} (hrun : s.run = .running) (hr : s.routine = some (k.routine a))
    (h : Answers (k.scan scanLap (s.pc - 1#16) a s.resumed) P) : ∃ t, step s = .next t ∧ ScanKeeps s t ∧ P t := by
  obtain ⟨t, ht, hP⟩ := h
  have hframe := scan_frame ht
  have hkeeps : RoutineKeeps s t :=
    ⟨hframe.pc, fun b => congrArg (Memory.read · b) hframe.mem, hframe.deviceOut, hframe.params⟩
  exact ⟨t, (step_of_routine hrun hr).trans ht,
    ⟨hkeeps, fun q _ => State.readReg_congr hframe.regs q, hframe.cc, hframe.consoleIn⟩, hP⟩

theorem not_ends_putsp {ws : List Word} :
    (∀ w ∈ ws, ¬ putsp.Ends w) ↔ ∀ w ∈ ws, w.toNat % 256 ≠ 0 ∧ w.toNat / 256 ≠ 0 := by simp [Ends]

theorem flatMap_chars_puts (cs : List Word) : cs.flatMap puts.chars = cs := List.flatMap_singleton' cs

theorem sameReads_enterTrap (s : State) : SameReads s s.advancePc.enterTrap := ⟨rfl, rfl, rfl⟩

/-! ### Strings shorter than a lap -/

/-- Settles O21: the loop over the string after the entry, up to the zero word (`scan_ended`) or to the denied read
(`scan_denied`), before which nothing is drawn. -/
theorem putsWritesTheWordString : Obligations.PutsWritesTheWordString := by
  refine fun s s' cs hcs hlen => ⟨fun h => ?_, fun h hd => ?_⟩
  · have hexec := (exec_trap .puts s).trans (scan_ended h (sameReads_enterTrap s) hcs rfl hlen)
    rw [flatMap_chars_puts, last, List.append_nil] at hexec
    exact ⟨_, hexec, trapKeepsRegs_of_exec hexec ⟨rfl, rfl⟩, rfl, rfl, rfl, rfl, rfl⟩
  · have hexec := (exec_trap .puts s).trans (scan_denied h (sameReads_enterTrap s) hcs hd hlen)
    rw [flatMap_chars_puts, h.eq_of_denied hd] at hexec
    exact ⟨_, hexec, trapKeepsRegs_of_exec hexec ⟨rfl, rfl⟩, rfl, rfl, rfl, rfl, rfl⟩

/-- Settles O23: as for PUTS, the terminator being in the low byte or in the high byte of the last word. -/
theorem putspWritesThePackedString : Obligations.PutspWritesThePackedString := by
  refine fun s s' ws z hws hlen => ⟨fun h hz => ?_, fun h hd => ?_⟩
  · have hexec :=
      (exec_trap .putsp s).trans (scan_ended h (sameReads_enterTrap s) (not_ends_putsp.2 hws) hz hlen)
    exact ⟨_, hexec, trapKeepsRegs_of_exec hexec ⟨rfl, rfl⟩, rfl, rfl, rfl, rfl, (List.append_assoc _ _ _).symm⟩
  · have hexec :=
      (exec_trap .putsp s).trans (scan_denied h (sameReads_enterTrap s) (not_ends_putsp.2 hws) hd hlen)
    rw [h.eq_of_denied hd] at hexec
    exact ⟨_, hexec, trapKeepsRegs_of_exec hexec ⟨rfl, rfl⟩, rfl, rfl, rfl, rfl, rfl⟩

/-! ### A lap of the loop -/

section
variable (hu : SameReads s u) (hout : u.consoleOut = s.consoleOut) (hrun : u.run = s.run)
  (hr : u.routine = s.routine)
include hu hout hrun hr

theorem puts_scanned : Answers (puts.scan scanLap f a u) (PutsScanned f a s) := by
  obtain ⟨cs, s', hcs, ⟨z, hz, h, hlen⟩ | ⟨h, hd, hlen⟩ | ⟨h, hlen⟩⟩ := readsAll_cases puts s a scanLap
  · refine ⟨_, scan_ended h hu hcs hz hlen, cs, s', hcs, ?_, rfl, .inl ⟨?_, hlen, hrun, hr⟩⟩
    · rw [flatMap_chars_puts, last, List.append_nil, ← hout]
      rfl
    · obtain rfl : z = 0x0000#16 := hz
      exact h
  · refine ⟨_, scan_denied h hu hcs hd hlen, cs, s', hcs, ?_, rfl, .inr (.inl ⟨h, hlen, hd, hr, rfl⟩)⟩
    rw [flatMap_chars_puts, ← hout]
    rfl
  · refine ⟨_, scan_lap h hu hcs hlen, cs, s', hcs, ?_, rfl, .inr (.inr ⟨h, hlen, hrun, rfl⟩)⟩
    rw [flatMap_chars_puts, ← hout]
    rfl

theorem putsp_scanned : Answers (putsp.scan scanLap f a u) (PutspScanned f a s) := by
  obtain ⟨ws, s', hws, ⟨z, hz, h, hlen⟩ | ⟨h, hd, hlen⟩ | ⟨h, hlen⟩⟩ := readsAll_cases putsp s a scanLap
  · refine ⟨_, scan_ended h hu hws hz hlen, ws, s', not_ends_putsp.1 hws, rfl,
      .inl ⟨z, hz, h, hlen, ?_, hrun, hr⟩⟩
    rw [← hout, List.append_assoc]
    rfl
  · refine ⟨_, scan_denied h hu hws hd hlen, ws, s', not_ends_putsp.1 hws, rfl,
      .inr (.inl ⟨h, hlen, hd, hr, ?_, rfl⟩)⟩
    rw [← hout]
    rfl
  · refine ⟨_, scan_lap h hu hws hlen, ws, s', not_ends_putsp.1 hws, rfl,
      .inr (.inr ⟨h, hlen, ?_, hrun, rfl⟩)⟩
    rw [← hout]
    rfl

end

/-- Settles O55: a lap of reads meets a zero word, a denied address, or neither (`readsAll_cases`), and the loop follows
it, from the entry as from a suspension. -/
theorem putsScanEndsFaultsOrGoesOn : Obligations.PutsScanEndsFaultsOrGoesOn :=
  ⟨fun s => exec_of_scan (k := puts) (puts_scanned (sameReads_enterTrap s) rfl rfl rfl),
    fun _ _ hrun hr => step_of_scan (k := puts) hrun hr (puts_scanned ⟨rfl, rfl, rfl⟩ rfl rfl rfl)⟩

/-- Settles O56: the same lap, ended by a zero byte. -/
theorem putspScanEndsFaultsOrGoesOn : Obligations.PutspScanEndsFaultsOrGoesOn :=
  ⟨fun s => exec_of_scan (k := putsp) (putsp_scanned (sameReads_enterTrap s) rfl rfl rfl),
    fun _ _ hrun hr => step_of_scan (k := putsp) hrun hr (putsp_scanned ⟨rfl, rfl, rfl⟩ rfl rfl rfl)⟩

/-! ### Strings of any length -/

theorem suspend_unseen (u : State) : (u.suspend (k.routine a)).seen = false := by cases k <;> rfl

theorem step_of_suspended (hrun : u.run = .running) (hr : u.routine = none) (d : Nat) (out : List Word) :
    step ((u.scanned d out).suspend (k.routine a)) = k.scan scanLap (u.pc - 1#16) a (u.scanned d out) := by
  rw [step_of_routine (s := (u.scanned d out).suspend _) hrun rfl]
  simp [State.resumed, State.suspend, State.scanned, hr]

/-- A step that runs the loop is the start of a HostStep that runs it over the whole string: induction on the string, a
lap at a time. -/
theorem hostStep_of_scan {v : State} {cs : List Word} {z : Word} (hstep : step v = k.scan scanLap f a u)
    (hrun : u.run = .running) (hr : u.routine = none) (h : ReadsAll s a (cs ++ [z]) s') (hu : SameReads s u)
    (hcs : ∀ c ∈ cs, ¬ k.Ends c) (hz : k.Ends z) :
    HostStep v (u.scanned s'.draws (cs.flatMap k.chars ++ k.last z)) := by
  induction hn : cs.length using Nat.strong_induction_on generalizing v cs s u f with
  | _ n ih =>
    by_cases hlen : cs.length < scanLap
    · exact .seen (hstep.trans (scan_ended h hu hcs hz hlen)) (by simp [State.seen, State.scanned, hr])
    · obtain ⟨lap, rest, hlap, rfl⟩ : ∃ lap rest, lap.length = scanLap ∧ cs = lap ++ rest :=
        ⟨_, _, List.length_take_of_le (not_lt.1 hlen), (List.take_append_drop scanLap cs).symm⟩
      rw [List.append_assoc, readsAll_append, hlap, add_ofNat_scanLap] at h
      obtain ⟨s1, hreads, hrest⟩ := h
      obtain ⟨hcs1, hcs2⟩ := List.forall_mem_append.1 hcs
      have hshort : rest.length < n := by
        rw [← hn, List.length_append, hlap, scanLap]
        omega
      refine .unseen (hstep.trans (scan_lap hreads hu hcs1 hlap)) (suspend_unseen _) ?_
      rw [List.flatMap_append, List.append_assoc, ← State.scanned_scanned]
      exact ih rest.length hshort (step_of_suspended hrun hr _ _) hrun hr hrest (hu.scanned hreads _) hcs2 rfl

/-- The HostStep that fetches the TRAP and writes the string. -/
theorem hostStep_of_string {s1 : State} {w : Word} {cs : List Word} {z : Word} (hrun : s.run = .running)
    (hr : s.routine = none) (hw : Reads s s.pc w s1) (hwell : wordWellFormed s.params.strictDecode w = true)
    (hdecode : decode w = .trap k.vector) (hcs : ∀ c ∈ cs, ¬ k.Ends c) (hz : k.Ends z)
    (h : ReadsAll s1 (s.readReg 0#3) (cs ++ [z]) s') :
    ∃ t, HostStep s t ∧ TrapKeepsRegs s t ∧ t.run = .running ∧ t.routine = none ∧
      t.consoleOut = s.consoleOut ++ (cs.flatMap k.chars ++ k.last z) ∧ t.consoleIn = s.consoleIn ∧
      t.draws = s'.draws := by
  obtain ⟨hregs, -, -, -, hrun1, hin, hout, -, -, hr1⟩ := hw.same
  have hstep := (stepRunsTheDecodedInstruction s hrun hr).1 w s1 hw hwell
  rw [hdecode, exec_trap, State.readReg_congr hregs] at hstep
  refine ⟨_, hostStep_of_scan hstep (hrun1.trans hrun) (hr1.trans hr) h (sameReads_enterTrap s1) hcs hz, ?_,
    hrun1.trans hrun, hr1.trans hr, congrArg (· ++ _) hout, hin, rfl⟩
  obtain ⟨-, -, rfl⟩ | ⟨-, -, -, rfl⟩ := hw <;> exact trapKeepsRegs_of_regsKept rfl ⟨rfl, rfl⟩ ⟨rfl, rfl⟩ rfl

/-- Settles O60: the step that fetches the TRAP starts the loop, and a HostStep runs it over the whole string
(`hostStep_of_scan`). -/
theorem stringsOfAnyLengthAreOneHostStep : Obligations.StringsOfAnyLengthAreOneHostStep := by
  refine ⟨fun s s1 s' w cs hrun hr hw hwell hdecode hcs h => ?_,
    fun s s1 s' w ws z hrun hr hw hwell hdecode hws hz h => ?_⟩
  · have hstring := hostStep_of_string (k := puts) hrun hr hw hwell hdecode hcs rfl h
    rwa [flatMap_chars_puts, last, List.append_nil] at hstring
  · have hstring := hostStep_of_string (k := putsp) hrun hr hw hwell hdecode (not_ends_putsp.2 hws) hz h
    rwa [← List.append_assoc] at hstring

end StringTrap

end Sys2Proof.Machine
end

section
/-! SUPPORT. The statements of spec/44_reserved.md. RTI and RES are State.unimplemented of their own opcode, so what it
answers is said once (unimplemented_answers), for every opcode and every state. -/

namespace Sys2Proof.Machine

/-- State.unimplemented answers a next state with the fault record, PC being PC(next) and everything else as it was
(R150, R152, D21). -/
theorem unimplemented_answers (s : State) (op : Opcode) :
    Answers (s.unimplemented op) fun t =>
      t.run = .faulted ⟨.unimplementedOpcode (opcodeBits op), s.pc⟩ ∧ t.causeCode = 1 ∧ t.pc = s.pc + 1#16 ∧
        SameRegsBut s t [] ∧ t.cc = s.cc ∧ SameMemory s t ∧ SamePorts s t :=
  ⟨_, rfl, rfl, rfl, rfl, fun _ _ => rfl, rfl, fun _ => rfl, rfl, rfl, rfl, rfl, rfl, rfl⟩

theorem exec_rti (s : State) : exec .rti s = s.unimplemented .rti := rfl

theorem exec_res (s : State) : exec .res s = s.unimplemented .res := rfl

/-- Settles O26: the opcode picks RTI, which is State.unimplemented of it (`unimplemented_answers`). -/
theorem rtiRaisesUnimplementedOpcode : Obligations.RtiRaisesUnimplementedOpcode := by
  refine ⟨fun w h => ?_, fun s => ?_⟩
  · rw [decode, opcode_of_extractLsb' (o := .rti) h]
  · rw [exec_rti]
    exact unimplemented_answers s .rti

/-- Settles O27: the opcode picks RES, which is State.unimplemented of it (`unimplemented_answers`). -/
theorem resRaisesUnimplementedOpcode : Obligations.ResRaisesUnimplementedOpcode := by
  refine ⟨fun w h => ?_, fun s => ?_⟩
  · rw [decode, opcode_of_extractLsb' (o := .res) h]
  · rw [exec_res]
    exact unimplemented_answers s .res

end Sys2Proof.Machine
end

section
/-! SUPPORT. The statement of spec/60_exceptions.md. The faults an instruction can raise are listed once (InstrFault), and
those of a suspended scan (ScanFault); that an instruction and a routine raise no other is said by RaisesOnly, which also
fixes the record's pc and PC. -/

namespace Sys2Proof.Machine

open Laws.EncodeAssembled (opcodeOfInstr)

/-! ### The faults there are -/

/-- The data accesses an instruction makes through MemRead and MemWrite (R151): those of the loads and stores, STI's
pointer read among them, and the scans of PUTS and PUTSP. -/
inductive MakesAccess : Instr → Access → Prop
  | ld (dr : RegIdx) (off : BitVec 9) : MakesAccess (.ld dr off) .read
  | ldi (dr : RegIdx) (off : BitVec 9) : MakesAccess (.ldi dr off) .read
  | ldr (dr base : RegIdx) (off : BitVec 6) : MakesAccess (.ldr dr base off) .read
  | st (sr : RegIdx) (off : BitVec 9) : MakesAccess (.st sr off) .write
  | stiPointer (sr : RegIdx) (off : BitVec 9) : MakesAccess (.sti sr off) .read
  | sti (sr : RegIdx) (off : BitVec 9) : MakesAccess (.sti sr off) .write
  | str (sr base : RegIdx) (off : BitVec 6) : MakesAccess (.str sr base off) .write
  | puts : MakesAccess (.trap 0x22#8) .read
  | putsp : MakesAccess (.trap 0x24#8) .read

/-- The faults an instruction can raise in a state (R150, R151, R153). -/
inductive InstrFault (s : State) : Instr → FaultCause → Prop
  | rti : InstrFault s .rti (.unimplementedOpcode 0x8#4)
  | res : InstrFault s .res (.unimplementedOpcode 0xD#4)
  | vector {v : BitVec 8} (hv : v.toNat < 0x20 ∨ 0x25 < v.toNat) : InstrFault s (.trap v) (.unrecognizedTrapVector v)
  | device {i : Instr} {a : Word} {access : Access} (hd : Denied s a) (h : MakesAccess i access) :
      InstrFault s i (.unimplementedDevice a access (some (opcodeBits (opcodeOfInstr i))))

/-- The fault a suspended scan can raise when it goes on, TRAP's own (R151). -/
inductive ScanFault (s : State) : Routine → FaultCause → Prop
  | puts {a b : Word} (hd : Denied s a) : ScanFault s (.puts b) (.unimplementedDevice a .read (some 0xF#4))
  | putsp {a b : Word} (hd : Denied s a) : ScanFault s (.putsp b) (.unimplementedDevice a .read (some 0xF#4))

/-- From s to t nothing is raised, or one of the faults C, its record's pc being fetchPc and PC kept (R152). -/
def RaisesOnly (C : FaultCause → Prop) (fetchPc : Word) (s t : State) : Prop :=
  t.run = s.run ∨ t.run = .halted ∨ ∃ c, C c ∧ t.run = .faulted ⟨c, fetchPc⟩ ∧ t.pc = s.pc

section
variable {C : FaultCause → Prop} {f : Word} {s t : State}

theorem RaisesOnly.raise {c : FaultCause} (hc : C c) : RaisesOnly C f s (s.raise c f) := .inr (.inr ⟨c, hc, rfl, rfl⟩)

theorem RaisesOnly.imp {D : FaultCause → Prop} (h : RaisesOnly C f s t) (hCD : ∀ c, C c → D c) : RaisesOnly D f s t :=
  h.imp_right (.imp_right (Exists.imp fun c => And.imp_left (hCD c)))

theorem RaisesOnly.of_writeChars (cs : List Word) (h : RaisesOnly C f (s.writeChars cs) t) : RaisesOnly C f s t := by
  rwa [State.writeChars_eq] at h

/-- What the FAULTED state that follows a RUNNING one holds. -/
theorem RaisesOnly.of_faulted {c : FaultCause} {pc : Word} (h : RaisesOnly C f s t) (hs : s.run = .running)
    (ht : t.run = .faulted ⟨c, pc⟩) : C c ∧ pc = f ∧ t.pc = s.pc := by
  rw [RaisesOnly, ht, hs] at h
  obtain h | h | ⟨c', hc, h, hpc⟩ := h <;> cases h
  exact ⟨hc, rfl, hpc⟩

/-! ### The access path and the console -/

theorem load_raisesOnly {op : Opcode} {a : Word} {k : Word → State → Result}
    (hdenied : Denied s a → C (.unimplementedDevice a .read (some (opcodeBits op))))
    (hk : ∀ v u, u.params = s.params → Answers (k v u) (RaisesOnly C f u)) :
    Answers (s.load op f a k) (RaisesOnly C f s) := by
  obtain ⟨v, u, h⟩ | hd := reads_or_denied s a
  · obtain ⟨-, hpc, -, -, hrun, -, -, -, hparams, -⟩ := h.same
    rw [load_of_reads h]
    exact (hk v u hparams).imp fun t ht => by rwa [RaisesOnly, hpc, hrun] at ht
  · exact ⟨_, load_of_denied hd op f k, .raise (hdenied hd)⟩

theorem store_raisesOnly {op : Opcode} {a : Word} (v : Word)
    (hdenied : Denied s a → C (.unimplementedDevice a .write (some (opcodeBits op)))) :
    Answers (s.store op f a v) (RaisesOnly C f s) := by
  obtain ⟨-, e⟩ | ⟨-, -, e⟩ | ⟨hdev, ha, e⟩ := s.store_cases op f a v
  · exact ⟨_, e, .inl rfl⟩
  · exact ⟨_, e, .inl rfl⟩
  · exact ⟨_, e, .raise (hdenied ⟨(s.isDevice_iff a).1 hdev, ha⟩)⟩

/-- A readChar raises nothing. -/
theorem awaitChar_raisesOnly {r : Routine} {k : Word → State → Result}
    (hk : ∀ c u, Answers (k c u) (·.run = u.run)) : Answers (s.awaitChar r k) (RaisesOnly C f s) := by
  obtain ⟨c, u, ⟨rest, -, rfl⟩ | ⟨-, -, rfl⟩, e⟩ | ⟨-, -, e⟩ := s.awaitChar_cases r k <;> rw [e]
  · exact (hk c _).imp fun _ => .inl
  · exact (hk c _).imp fun _ => .inl
  · exact ⟨_, rfl, .inl rfl⟩

/-! ### Trap routines -/

theorem trapGetc_raisesOnly (C : FaultCause → Prop) (f : Word) (s : State) :
    Answers (trapGetc s) (RaisesOnly C f s) :=
  awaitChar_raisesOnly fun c u => ⟨u.writeReg 0#3 c, rfl, rfl⟩

theorem trapInEcho_raisesOnly (C : FaultCause → Prop) (f : Word) (s : State) :
    Answers (trapInEcho s) (RaisesOnly C f s) :=
  awaitChar_raisesOnly fun c u => ⟨(u.writeChar c).writeReg 0#3 c, rfl, rfl⟩

theorem ScanFrame.raisesOnly (h : ScanFrame f s t)
    (hdenied : ∀ a, Denied s a → C (.unimplementedDevice a .read (some 0xF#4))) : RaisesOnly C f s t := by
  obtain hrun | ⟨a, hdev, ha, hrun⟩ := h.run
  · exact .inl hrun
  · exact .inr (.inr ⟨_, hdenied a ⟨(s.isDevice_iff a).1 hdev, ha⟩, hrun, h.pc⟩)

/-- A scan raises what its reads raise (`ScanFrame`). -/
theorem scan_raisesOnly {r : Result} (hanswers : Answers r fun _ => True) (hframe : ∀ t, r = .next t → ScanFrame f s t)
    (hdenied : ∀ a, Denied s a → C (.unimplementedDevice a .read (some 0xF#4))) : Answers r (RaisesOnly C f s) := by
  obtain ⟨t, ht, -⟩ := hanswers
  exact ⟨t, ht, (hframe t ht).raisesOnly hdenied⟩

theorem putsScan_raisesOnly (n : Nat) (a : Word)
    (hdenied : ∀ b, Denied s b → C (.unimplementedDevice b .read (some 0xF#4))) :
    Answers (putsScan n f a s) (RaisesOnly C f s) :=
  scan_raisesOnly (putsScan_answers n f a s) (fun t => putsScan_frame n f a s t) hdenied

theorem putspScan_raisesOnly (n : Nat) (a : Word)
    (hdenied : ∀ b, Denied s b → C (.unimplementedDevice b .read (some 0xF#4))) :
    Answers (putspScan n f a s) (RaisesOnly C f s) :=
  scan_raisesOnly (putspScan_answers n f a s) (fun t => putspScan_frame n f a s t) hdenied

end

/-- A suspended routine raises a scan's fault at most, fetch_pc being PC - 1. -/
theorem resumeRoutine_raisesOnly (r : Routine) (s : State) :
    Answers (resumeRoutine r s) (RaisesOnly (ScanFault s r) (s.pc - 1#16) s) := by
  cases r with
  | getc => exact trapGetc_raisesOnly _ _ s
  | inEcho => exact trapInEcho_raisesOnly _ _ s
  | puts a => exact putsScan_raisesOnly _ a fun _ => .puts
  | putsp a => exact putspScan_raisesOnly _ a fun _ => .putsp

/-- TRAP's routine, from the state that trap entry leaves. -/
theorem trapDispatch_raisesOnly (v : BitVec 8) (f : Word) (s : State) :
    Answers (trapDispatch v f s) (RaisesOnly (InstrFault s (.trap v)) f s) := by
  unfold trapDispatch
  split
  next => exact trapGetc_raisesOnly _ f s
  next => exact ⟨_, rfl, .inl rfl⟩
  next hv =>
    obtain rfl : v = 0x22#8 := BitVec.eq_of_toNat_eq hv
    exact putsScan_raisesOnly _ _ fun _ hd => .device hd .puts
  next => exact (trapInEcho_raisesOnly _ f _).imp fun _ => .of_writeChars s.params.inPrompt
  next hv =>
    obtain rfl : v = 0x24#8 := BitVec.eq_of_toNat_eq hv
    exact putspScan_raisesOnly _ _ fun _ hd => .device hd .putsp
  next => exact ⟨_, rfl, .inr (.inl rfl)⟩
  next =>
    have hv : v.toNat < 0x20 ∨ 0x25 < v.toNat := by grind
    exact ⟨_, rfl, .raise (.vector hv)⟩

/-! ### Instructions -/

/-- What can be raised depends on the parameters of the state alone. -/
theorem InstrFault.of_params {s u : State} {i : Instr} {c : FaultCause} (hu : u.params = s.params)
    (h : InstrFault s i c) : InstrFault u i c := by
  cases h with
  | rti => exact .rti
  | res => exact .res
  | vector hv => exact .vector hv
  | device hd h => exact .device (hd.of_params hu) h

/-- Every instruction raises one of its own faults at most, with PC at PC(next) (D21). -/
theorem exec_raisesOnly (i : Instr) (s : State) :
    Answers (exec i s) (RaisesOnly (InstrFault s i) s.pc s.advancePc) := by
  cases i with
  | addReg | addImm | andReg | andImm | notReg | lea | jmp | jsr | jsrr => exact ⟨_, rfl, .inl rfl⟩
  | br nzp off =>
    by_cases h : nzp &&& s.cc = 0b000#3
    · exact ⟨_, exec_br_not_taken h off, .inl rfl⟩
    · exact ⟨_, exec_br_taken h off, .inl rfl⟩
  | rti => exact ⟨_, rfl, .raise .rti⟩
  | res => exact ⟨_, rfl, .raise .res⟩
  | ld dr off => exact load_raisesOnly (fun hd => .device hd (.ld dr off)) fun _ _ _ => ⟨_, rfl, .inl rfl⟩
  | ldr dr base off => exact load_raisesOnly (fun hd => .device hd (.ldr dr base off)) fun _ _ _ => ⟨_, rfl, .inl rfl⟩
  | ldi dr off =>
    refine load_raisesOnly (fun hd => .device hd (.ldi dr off)) fun _ _ hu => ?_
    exact load_raisesOnly (fun hd => .device (hd.of_params hu.symm) (.ldi dr off)) fun _ _ _ => ⟨_, rfl, .inl rfl⟩
  | st sr off => exact store_raisesOnly _ fun hd => .device hd (.st sr off)
  | str sr base off => exact store_raisesOnly _ fun hd => .device hd (.str sr base off)
  | sti sr off =>
    refine load_raisesOnly (fun hd => .device hd (.stiPointer sr off)) fun _ _ hu => ?_
    exact store_raisesOnly _ fun hd => .device (hd.of_params hu.symm) (.sti sr off)
  | trap v => exact (trapDispatch_raisesOnly v s.pc s.advancePc.enterTrap).imp fun _ h => h.imp fun _ => .of_params rfl

/-! ### The record in the terms of the word fetched -/

theorem opcodeOfInstr_decode (w : Word) : opcodeOfInstr (decode w) = opcode w := by
  cases ho : opcode w with
  | add | and | jsr =>
    simp only [decode, ho]
    split <;> rfl
  | br | ld | st | ldr | str | rti | not | ldi | sti | jmp | res | lea | trap => simp only [decode, ho, opcodeOfInstr]

theorem State.causeCode_of_faulted {t : State} {r : FaultRecord} (h : t.run = .faulted r) :
    t.causeCode = r.cause.code := by
  simp [State.causeCode, State.faultRecord_eq_some.2 h]

/-- Which opcodes and trap vectors make an access. -/
theorem MakesAccess.opcode {i : Instr} {access : Access} {op : BitVec 4} (h : MakesAccess i access)
    (hop : op = opcodeBits (opcodeOfInstr i)) :
    (access = .read ∧ (op = 0x2#4 ∨ op = 0xA#4 ∨ op = 0x6#4 ∨ op = 0xB#4)) ∨
    (access = .read ∧ (i = .trap 0x22#8 ∨ i = .trap 0x24#8)) ∨
    (access = .write ∧ (op = 0x3#4 ∨ op = 0xB#4 ∨ op = 0x7#4)) := by
  subst hop
  cases h <;> simp [opcodeOfInstr, opcodeBits]

/-- Settles O42: the three ways of a step (`step_next`): a suspended routine raises a scan's fault, the fetch its own, and
the decoded instruction one of InstrFault. -/
theorem faultedHasOneOfTheThreeCauses : Obligations.FaultedHasOneOfTheThreeCauses := by
  intro s t c pc h hfaulted
  have hcode : t.causeCode = c.code := State.causeCode_of_faulted hfaulted
  obtain ⟨hrun, ⟨r, hr, h⟩ | ⟨hr, ⟨hdev, ha, rfl⟩ | ⟨w, s', e, -, h⟩⟩⟩ := step_next s t h
  · obtain ⟨hfault, hpc, htpc⟩ := ((resumeRoutine_raisesOnly r s.resumed).of_eq h).of_faulted hrun hfaulted
    refine .inr ⟨hpc, htpc, ?_⟩
    cases hfault with
    | puts hd => exact ⟨hcode, _, _, .inl hr, hd, rfl⟩
    | putsp hd => exact ⟨hcode, _, _, .inr hr, hd, rfl⟩
  · cases hfaulted
    exact .inl ⟨hr, rfl, .inl ⟨rfl, ⟨(s.isDevice_iff _).1 hdev, ha⟩, rfl, rfl⟩⟩
  · have hw := (reads_iff s s' s.pc w).2 e
    obtain ⟨-, hpc', -, -, hrun', -⟩ := hw.same
    obtain ⟨hfault, hpc, htpc⟩ := ((exec_raisesOnly (decode w) s').of_eq h).of_faulted (hrun'.trans hrun) hfaulted
    refine .inl ⟨hr, hpc.trans hpc', .inr ⟨htpc.trans (congrArg (· + 1#16) hpc'), w, s', hw, ?_⟩⟩
    have hop : opcodeBits (opcodeOfInstr (decode w)) = w.extractLsb' 12 4 := by
      rw [opcodeOfInstr_decode, opcodeBits_opcode, field]
    generalize decode w = i at hfault hop ⊢
    cases hfault with
    | rti => exact .inl ⟨rfl, rfl, hcode⟩
    | res => exact .inr (.inl ⟨rfl, rfl, hcode⟩)
    | vector hv => exact .inr (.inr (.inl ⟨_, rfl, rfl, hv, hcode⟩))
    | device hd hacc =>
      exact .inr (.inr (.inr ⟨_, _, _, rfl, hd.of_params hw.params_eq.symm, hop, hcode, hacc.opcode rfl⟩))

end Sys2Proof.Machine
end

section
/-! SUPPORT. The statements of spec/70_reset_and_hazards.md about the load and the start of a session. A load writes the
cells a, a + 1, … one after another, around the end of the address space too: what it leaves is said of every image
(loadWords_read_outside), and what it places of one that fits (loadWords_read_word), where no cell is written twice. -/

namespace Sys2Proof.Machine

/-! ### The load (R173) -/

theorem littleEndian_toNat (low high : Byte) : (littleEndian low high).toNat = low.toNat + 256 * high.toNat := by
  rw [littleEndian, BitVec.toNat_append, ← Nat.shiftLeft_add_eq_or_of_lt low.isLt, Nat.shiftLeft_eq]
  omega

theorem littleEndian_eq_ofNat (low high : Byte) :
    littleEndian low high = BitVec.ofNat 16 (low.toNat + 256 * high.toNat) :=
  BitVec.eq_of_toNat_eq (by rw [littleEndian_toNat, BitVec.toNat_ofNat]; omega)

theorem loadWords_cons (low high : Byte) (rest : List Byte) (a : Word) (m : Memory) :
    loadWords (low :: high :: rest) a m = loadWords rest (a + 1#16) (m.write a (littleEndian low high)) := rfl

/-- The cell of word k + 1 from a is the cell of word k from a + 1. -/
theorem wordAddr_succ (a : Word) (k : Nat) : a + BitVec.ofNat 16 (k + 1) = a + 1#16 + BitVec.ofNat 16 k := by
  rw [Nat.add_comm, BitVec.ofNat_add, BitVec.add_assoc]

/-- A cell that no word of the image names is as it was. -/
theorem loadWords_read_outside (image : List Byte) (a : Word) (m : Memory) (b : Word)
    (h : ∀ k < image.length / 2, b ≠ a + BitVec.ofNat 16 k) : (loadWords image a m).read b = m.read b := by
  induction image, a, m using loadWords.induct with
  | case1 low high rest a m ih =>
    have hhead : a ≠ b := by simpa using (h 0 (by simp)).symm
    have hrest : ∀ k < rest.length / 2, b ≠ a + 1#16 + BitVec.ofNat 16 k := fun k hk =>
      wordAddr_succ a k ▸ h (k + 1) (by simp only [List.length_cons]; omega)
    rw [loadWords_cons, ih hrest, Memory.read_write_ne _ _ _ _ hhead]
  | case2 image a m hshort => rw [loadWords]; exact hshort

/-- Word k of an image that has no more words than there are cells stands at a + k. -/
theorem loadWords_read_word (image : List Byte) (a : Word) (m : Memory) (hm : m.wf = true)
    (hfit : image.length / 2 ≤ 65536) (k : Nat) (b0 b1 : Byte) (h0 : image[2 * k]? = some b0)
    (h1 : image[2 * k + 1]? = some b1) :
    (loadWords image a m).read (a + BitVec.ofNat 16 k) = littleEndian b0 b1 := by
  induction image, a, m using loadWords.induct generalizing k with
  | case1 low high rest a m ih =>
    simp only [List.length_cons] at hfit
    cases k with
    | zero =>
      have hnotAgain : ∀ j < rest.length / 2, a ≠ a + 1#16 + BitVec.ofNat 16 j := fun j hj => by bv_omega
      obtain ⟨rfl, rfl⟩ : low = b0 ∧ high = b1 := ⟨Option.some.inj h0, Option.some.inj h1⟩
      rw [loadWords_cons, BitVec.add_zero, loadWords_read_outside _ _ _ _ hnotAgain, Memory.read_write_same _ _ _ hm]
    | succ k =>
      rw [loadWords_cons, wordAddr_succ a k]
      exact ih (Memory.wf_write m a _ hm) (by omega) k h0 h1
  | case2 image a m hshort =>
    match image with
    | [] | [_] => simp at h1
    | low :: high :: rest => exact absurd rfl (hshort low high rest)

theorem loadImage_truncated {image : List Byte} (m : Memory) (h : image.length < 2 ∨ image.length % 2 = 1) :
    loadImage image m = .error .truncated := by
  match image with
  | [] | [_] => rfl
  | low :: high :: rest =>
    simp only [List.length_cons] at h
    exact if_pos (by omega)

theorem loadImage_doesNotFit {low high : Byte} {rest : List Byte} (m : Memory) (heven : rest.length % 2 = 0)
    (h : (littleEndian low high).toNat + rest.length / 2 > 65536) :
    loadImage (low :: high :: rest) m = .error .doesNotFit :=
  (if_neg (by omega)).trans (if_pos h)

theorem loadImage_fits {low high : Byte} {rest : List Byte} (m : Memory) (heven : rest.length % 2 = 0)
    (h : (littleEndian low high).toNat + rest.length / 2 ≤ 65536) :
    loadImage (low :: high :: rest) m = .ok (loadWords rest (littleEndian low high) m) :=
  (if_neg (by omega)).trans (if_neg (by omega))

/-- Settles O30: the three ways of loadImage. The words of an image that fits stand from its origin on
(`loadWords_read_word`), and a cell before the origin or after the last word is none of theirs
(`loadWords_read_outside`), since below 65536 no address wraps. -/
theorem loadImagePlacesLittleEndianWords : Obligations.LoadImagePlacesLittleEndianWords := by
  refine ⟨fun image m => loadImage_truncated m, fun lo hi rest m heven hlong => ?_,
    fun lo hi rest m heven hfit hm => ?_⟩
  · exact loadImage_doesNotFit m heven (by rwa [littleEndian_toNat])
  · refine ⟨_, loadImage_fits m heven (by rwa [littleEndian_toNat]), loadWords_wf _ _ _ hm,
      fun k b0 b1 h0 h1 => ?_, fun a ha => loadWords_read_outside _ _ _ _ fun k hk hak => ?_⟩
    · rw [BitVec.ofNat_add, ← littleEndian_eq_ofNat, loadWords_read_word _ _ _ hm (by omega) k b0 b1 h0 h1,
        littleEndian_toNat]
    · subst hak
      simp only [BitVec.toNat_add, BitVec.toNat_ofNat, littleEndian_toNat] at ha
      omega

/-! ### The start of a session (R170, R171) -/

theorem State.boot_of_error {memInit : Memory} {image : List Byte} {e : LoadError} (p : Params)
    (h : loadImage image memInit = .error e) : State.boot p memInit image = .error e := by
  rw [State.boot, h]

theorem State.boot_of_ok {memInit m : Memory} {image : List Byte} (p : Params)
    (h : loadImage image memInit = .ok m) : State.boot p memInit image = .ok (State.initial p m) := by
  rw [State.boot, h]

theorem State.readReg_initial (p : Params) (m : Memory) (r : RegIdx) : (State.initial p m).readReg r = 0x0000#16 :=
  Vector.getElem_replicate _

/-- Settles O28: the session starts in State.initial with the loaded memory (`State.boot_of_ok`), or not at all. -/
theorem sessionStartsInTheResetState : Obligations.SessionStartsInTheResetState := by
  intro p memInit image
  split
  next e h => exact State.boot_of_error p h
  next m h => exact ⟨_, State.boot_of_ok p h, State.readReg_initial p m, rfl, rfl, rfl, rfl, rfl, rfl, rfl⟩

end Sys2Proof.Machine
end

section
/-! SUPPORT. The statement that ties State.reset to the start of a session (notes/assumptions/2.md and 10.md): an image
of two bytes names an origin and holds no word, so it loads and changes no memory, whatever its origin. -/

namespace Sys2Proof.Machine

theorem loadWords_nil (a : Word) (m : Memory) : loadWords [] a m = m := rfl

/-- An image that is an origin alone fits at every origin and places no word (R173). -/
theorem loadImage_origin (low high : Byte) (m : Memory) : loadImage [low, high] m = .ok m := by
  have hfit : (littleEndian low high).toNat + ([] : List Byte).length / 2 ≤ 65536 :=
    (littleEndian low high).isLt.le
  rw [loadImage_fits m rfl hfit, loadWords_nil]

/-- Settles O29: the image of log entry 10 loads no word (`loadImage_origin`), so the session starts in State.initial
with the defaults of R6 and no listed cell, which is State.reset; an unlisted cell reads 0 (`Memory.read_nil`). -/
theorem resetIsTheDefaultSessionWithoutAProgram : Obligations.ResetIsTheDefaultSessionWithoutAProgram :=
  ⟨State.boot_of_ok Params.default (loadImage_origin 0x00#8 0x30#8 []), State.readReg_initial Params.default [],
    rfl, rfl, Memory.read_nil, rfl, rfl, rfl⟩

end Sys2Proof.Machine
end
